-- ==== Sys2Proof/Word.lean ====
section
/-! DEFINITION. The value types of 00_scope.md R8 and R9: bits, bytes, byte strings. -/

namespace Sys2Proof

/-- A `Byte` (R8): an unsigned 8-bit value. Bit 0 is the least significant (R9). -/
abbrev Byte := BitVec 8

/-- A byte string (R8), first byte first. -/
abbrev Bytes := List Byte

/-- A bit sequence (R8), first bit first: a frame's bits in transmission order. -/
abbrev Bits := List Bool

end Sys2Proof
end

