-- ==== Sys2Proof/Machine/Bits.lean ====
section
/-! DEFINITION. Bit and byte order: bits of a value, numbers in the interface, stream packing (20_memory.md R42 to R47). -/

namespace Sys2Proof.Machine

/-- The low `n` bits of a value, bit 0 first: wire order and cipher order (R42, R43). -/
def bitsOf {w : Nat} (n : Nat) (v : BitVec w) : Bits :=
  (List.range n).map v.getLsbD

/-- The unsigned value of a bit sequence, its first bit the least significant. -/
def bitsToNat : Bits → Nat
  | [] => 0
  | b :: bs => b.toNat + 2 * bitsToNat bs

/-- The byte whose bit `i` is element `i` of the sequence; the bits beyond its end are 0 (R43, R44). -/
def byteOfBits (bs : Bits) : Byte :=
  BitVec.ofNat 8 (bitsToNat bs)

/-- `zext_8` of one bit (R10). -/
def bitByte (b : Bool) : Byte :=
  (BitVec.ofBool b).setWidth 8

/-- A u16 as two bytes, little-endian (R45, R46). -/
def u16Bytes (c : BitVec 16) : Bytes :=
  [c.extractLsb' 0 8, c.extractLsb' 8 8]

/-- The u16 `lo | (hi << 8)` (R61, R123). -/
def u16OfBytes (lo hi : Byte) : BitVec 16 :=
  lo.setWidth 16 ||| (hi.setWidth 16 <<< 8)

/-- A u32 as four bytes, `y[7:0]` first (R29, R190). -/
def u32Bytes (y : BitVec 32) : Bytes :=
  [y.extractLsb' 0 8, y.extractLsb' 8 8, y.extractLsb' 16 8, y.extractLsb' 24 8]

/-- The u32 `x0 | x1 << 8 | x2 << 16 | x3 << 24` (R190). -/
def u32OfBytes (x0 x1 x2 x3 : Byte) : BitVec 32 :=
  x0.setWidth 32 ||| (x1.setWidth 32 <<< 8) ||| (x2.setWidth 32 <<< 16) ||| (x3.setWidth 32 <<< 24)

/-- `ceil(n/8)`: the data bytes of a stream of `n` bits (R44, R61). -/
def streamBytes (n : Nat) : Nat :=
  (n + 7) / 8

/-- The data bytes of a returned stream (R44): bit `k` is bit `k mod 8` of byte `k div 8`, the unused high bits of the
last byte are 0. -/
def packBits (s : Bits) : Bytes :=
  (List.range (streamBytes s.length)).map fun j => byteOfBits ((s.drop (8 * j)).take 8)

/-- A returned stream (R44): its bit count as a little-endian u16, then its data bytes. -/
def stream (s : Bits) : Bytes :=
  u16Bytes (BitVec.ofNat 16 s.length) ++ packBits s

/-- The first `n` bits of a submitted stream's data bytes (R44); the bits after them are ignored. -/
def unpackBits (n : Nat) (data : Bytes) : Bits :=
  (List.range n).map fun k => (data.getD (k / 8) 0).getLsbD (k % 8)

end Sys2Proof.Machine
end

