-- ==== Sys2Proof/Syntax.lean ====
section
/-! DEFINITION. The commands of the block: one constructor per row of the opcode map (30_encoding.md R66).

Operands are the bytes of the command's format (R61) as the host submitted them. `IMM` and `CTL` stay whole bytes,
because a reserved bit that is 1 is checked when the command runs, after its length and before its range (60_exceptions.md
R205). `LEN` is the length of `data`; `m` is the mode bit M of R67. -/

namespace Sys2Proof

/-- A command of R66. -/
inductive Instr where
  /-- NOP (R100), format A. -/
  | nop
  /-- STATUS (R101), format A. -/
  | status
  /-- CLEAR_ERR (R102), format A. -/
  | clearErr
  /-- BLOCK_RESET (R103), format A. -/
  | blockReset
  /-- FC_PARITY (R111), format B. -/
  | fcParity (imm : Byte)
  /-- FC_ENC_SHORT (R112), format B. -/
  | fcEncShort (imm : Byte)
  /-- FC_ENC_STD (R114), format F. -/
  | fcEncStd (ctl : Byte) (data : Bytes)
  /-- FC_DEC_STD (R115), format S. -/
  | fcDecStd (ctl : Byte) (nb : BitVec 16) (bits : Bytes)
  /-- FC_ENC_4BIT (R117), format B. -/
  | fcEnc4Bit (imm : Byte)
  /-- FC_DEC_4BIT (R118), format S. -/
  | fcDec4Bit (ctl : Byte) (nb : BitVec 16) (bits : Bytes)
  /-- FC_CRC (R121), format L. -/
  | fcCrc (data : Bytes)
  /-- FC_CRC_CHECK (R122), format L. -/
  | fcCrcCheck (data : Bytes)
  /-- FC_CRC_INIT (R127), format A. -/
  | fcCrcInit
  /-- FC_CRC_UPDATE (R128), format B. -/
  | fcCrcUpdate (imm : Byte)
  /-- FC_CRC_READ (R129), format A. -/
  | fcCrcRead
  /-- C1_DISCARD (R151), format A. -/
  | c1Discard
  /-- C1_LOAD_KEY (R150), format K. -/
  | c1LoadKey (k0 k1 k2 k3 k4 k5 : Byte)
  /-- C1_PEEK (R152), format A. -/
  | c1Peek
  /-- C1_READ_STATE (R153), format A. -/
  | c1ReadState
  /-- C1_BIT.M (R154), format B; M is the encrypted-input flag E. -/
  | c1Bit (m : Bool) (imm : Byte)
  /-- C1_NIBBLE.M (R155), format B; M is E. -/
  | c1Nibble (m : Bool) (imm : Byte)
  /-- C1_BYTE.M (R156), format B; M is E. -/
  | c1Byte (m : Bool) (imm : Byte)
  /-- C1_WORD.M (R157), format W; M is E. -/
  | c1Word (m : Bool) (w0 w1 w2 w3 : Byte)
  /-- C1_ENC_BYTE.M (R158), format B; M is the plaintext-feedback flag P. -/
  | c1EncByte (m : Bool) (imm : Byte)
  /-- C1_DEC_BYTE.M (R159), format B; M is P. -/
  | c1DecByte (m : Bool) (imm : Byte)
  /-- CF_ENC.M (R182), format F; M is P. -/
  | cfEnc (m : Bool) (ctl : Byte) (data : Bytes)
  /-- CF_DEC.M (R184), format S; M is P. -/
  | cfDec (m : Bool) (ctl : Byte) (nb : BitVec 16) (bits : Bytes)
  /-- NH_SUC (R191), format N. -/
  | nhSuc (cnt x0 x1 x2 x3 : Byte)
  deriving DecidableEq, Repr

end Sys2Proof
end

