-- ==== Sys2Proof/WellFormed.lean ====
section
/-! DEFINITION. Which terms of `Instr` a command buffer can hold (30_encoding.md R61, R64): `LEN` is one byte, and a stream
has the data bytes its bit count asks for. Every other operand is any byte string of its fixed length, reserved bits
included (they are a status of the command, 60_exceptions.md R202, not a matter of form). -/

namespace Sys2Proof

/-- The check that the encoding can carry the command. -/
def Instr.wellFormed : Instr → Bool
  | .fcEncStd _ data => decide (data.length ≤ 255)
  | .fcDecStd _ nb bits => decide (bits.length = Machine.streamBytes nb.toNat)
  | .fcDec4Bit _ nb bits => decide (bits.length = Machine.streamBytes nb.toNat)
  | .fcCrc data => decide (data.length ≤ 255)
  | .fcCrcCheck data => decide (data.length ≤ 255)
  | .cfEnc _ _ data => decide (data.length ≤ 255)
  | .cfDec _ _ nb bits => decide (bits.length = Machine.streamBytes nb.toNat)
  | .nop | .status | .clearErr | .blockReset | .fcParity _ | .fcEncShort _ | .fcEnc4Bit _ | .fcCrcInit
  | .fcCrcUpdate _ | .fcCrcRead | .c1Discard | .c1LoadKey _ _ _ _ _ _ | .c1Peek | .c1ReadState | .c1Bit _ _
  | .c1Nibble _ _ | .c1Byte _ _ | .c1Word _ _ _ _ _ | .c1EncByte _ _ | .c1DecByte _ _ | .nhSuc _ _ _ _ _ => true

end Sys2Proof
end

