-- ==== Sys2Proof/Decode.lean ====
section
/-! DEFINITION. From a command buffer to a command and back (30_encoding.md R60 to R68).

The decoder makes the first two checks of 60_exceptions.md R205: the opcode is legal, then the buffer length matches the format.
The later checks (reserved bits, range, KEYED) belong to the commands' meanings (log 5). -/

namespace Sys2Proof

open Machine (u16Bytes u16OfBytes streamBytes)

/-- Why a buffer is no command: the checks of R205, steps 1 and 2. -/
inductive DecodeError where
  /-- The buffer is empty or its first byte is not in the opcode map (R68, R202). -/
  | illegalOpcode
  /-- The buffer length disagrees with the format (R61, R203). -/
  | length
  deriving DecidableEq, Repr

/-- What the decoder answers. -/
abbrev Decoded := Except DecodeError Instr

/-- Format A (R61): no operand byte. -/
def formatA (i : Instr) : Bytes → Decoded
  | [] => .ok i
  | _ => .error .length

/-- Format B (R61): `IMM`. -/
def formatB (k : Byte → Instr) : Bytes → Decoded
  | [imm] => .ok (k imm)
  | _ => .error .length

/-- Format W (R61): `W0 W1 W2 W3`. -/
def formatW (k : Byte → Byte → Byte → Byte → Instr) : Bytes → Decoded
  | [w0, w1, w2, w3] => .ok (k w0 w1 w2 w3)
  | _ => .error .length

/-- Format N (R61): `CNT X0 X1 X2 X3`. -/
def formatN (k : Byte → Byte → Byte → Byte → Byte → Instr) : Bytes → Decoded
  | [cnt, x0, x1, x2, x3] => .ok (k cnt x0 x1 x2 x3)
  | _ => .error .length

/-- Format K (R61): `K0 K1 K2 K3 K4 K5`. -/
def formatK (k : Byte → Byte → Byte → Byte → Byte → Byte → Instr) : Bytes → Decoded
  | [k0, k1, k2, k3, k4, k5] => .ok (k k0 k1 k2 k3 k4 k5)
  | _ => .error .length

/-- Format L (R61): `LEN`, then exactly `LEN` data bytes. -/
def formatL (k : Bytes → Instr) : Bytes → Decoded
  | len :: data => if data.length = len.toNat then .ok (k data) else .error .length
  | _ => .error .length

/-- Format F (R61): `CTL`, `LEN`, then exactly `LEN` data bytes. -/
def formatF (k : Byte → Bytes → Instr) : Bytes → Decoded
  | ctl :: len :: data => if data.length = len.toNat then .ok (k ctl data) else .error .length
  | _ => .error .length

/-- Format S (R61): `CTL`, `NB_LO`, `NB_HI`, then exactly `ceil(NB/8)` stream bytes. -/
def formatS (k : Byte → BitVec 16 → Bytes → Instr) : Bytes → Decoded
  | ctl :: lo :: hi :: bits =>
    if bits.length = streamBytes (u16OfBytes lo hi).toNat then .ok (k ctl (u16OfBytes lo hi) bits)
    else .error .length
  | _ => .error .length

/-- The opcode map of R66, with the format of each row, applied to the bytes after the opcode. An opcode outside the map
is illegal (R68). -/
def decodeOperands (op : Byte) (rest : Bytes) : Decoded :=
  match op with
  | 0x00 => formatA .nop rest
  | 0x01 => formatA .status rest
  | 0x02 => formatA .clearErr rest
  | 0x03 => formatA .blockReset rest
  | 0x10 => formatB .fcParity rest
  | 0x11 => formatB .fcEncShort rest
  | 0x12 => formatF .fcEncStd rest
  | 0x13 => formatS .fcDecStd rest
  | 0x14 => formatB .fcEnc4Bit rest
  | 0x15 => formatS .fcDec4Bit rest
  | 0x16 => formatL .fcCrc rest
  | 0x17 => formatL .fcCrcCheck rest
  | 0x18 => formatA .fcCrcInit rest
  | 0x19 => formatB .fcCrcUpdate rest
  | 0x1A => formatA .fcCrcRead rest
  | 0x20 => formatA .c1Discard rest
  | 0x21 => formatK .c1LoadKey rest
  | 0x22 => formatA .c1Peek rest
  | 0x23 => formatA .c1ReadState rest
  | 0x24 => formatB (.c1Bit false) rest
  | 0x25 => formatB (.c1Bit true) rest
  | 0x26 => formatB (.c1Nibble false) rest
  | 0x27 => formatB (.c1Nibble true) rest
  | 0x28 => formatB (.c1Byte false) rest
  | 0x29 => formatB (.c1Byte true) rest
  | 0x2A => formatW (.c1Word false) rest
  | 0x2B => formatW (.c1Word true) rest
  | 0x2C => formatB (.c1EncByte false) rest
  | 0x2D => formatB (.c1EncByte true) rest
  | 0x2E => formatB (.c1DecByte false) rest
  | 0x2F => formatB (.c1DecByte true) rest
  | 0x30 => formatF (.cfEnc false) rest
  | 0x31 => formatF (.cfEnc true) rest
  | 0x32 => formatS (.cfDec false) rest
  | 0x33 => formatS (.cfDec true) rest
  | 0x40 => formatN .nhSuc rest
  | _ => .error .illegalOpcode

/-- The command a buffer holds (R60, R61). -/
def decode : Bytes → Decoded
  | [] => .error .illegalOpcode
  | op :: rest => decodeOperands op rest

/-- The opcode of a mode pair: `base` with the mode bit M in `OP[0]` (R66, R67). -/
def modeOpcode (base : Byte) (m : Bool) : Byte :=
  base ||| (BitVec.ofBool m).setWidth 8

/-- A length byte and the data it counts (R61, R64). -/
def lengthAndData (data : Bytes) : Bytes :=
  BitVec.ofNat 8 data.length :: data

/-- The buffer of a command (R61, R66). -/
def encode : Instr → Bytes
  | .nop => [0x00]
  | .status => [0x01]
  | .clearErr => [0x02]
  | .blockReset => [0x03]
  | .fcParity imm => [0x10, imm]
  | .fcEncShort imm => [0x11, imm]
  | .fcEncStd ctl data => 0x12 :: ctl :: lengthAndData data
  | .fcDecStd ctl nb bits => 0x13 :: ctl :: (u16Bytes nb ++ bits)
  | .fcEnc4Bit imm => [0x14, imm]
  | .fcDec4Bit ctl nb bits => 0x15 :: ctl :: (u16Bytes nb ++ bits)
  | .fcCrc data => 0x16 :: lengthAndData data
  | .fcCrcCheck data => 0x17 :: lengthAndData data
  | .fcCrcInit => [0x18]
  | .fcCrcUpdate imm => [0x19, imm]
  | .fcCrcRead => [0x1A]
  | .c1Discard => [0x20]
  | .c1LoadKey k0 k1 k2 k3 k4 k5 => [0x21, k0, k1, k2, k3, k4, k5]
  | .c1Peek => [0x22]
  | .c1ReadState => [0x23]
  | .c1Bit m imm => [modeOpcode 0x24 m, imm]
  | .c1Nibble m imm => [modeOpcode 0x26 m, imm]
  | .c1Byte m imm => [modeOpcode 0x28 m, imm]
  | .c1Word m w0 w1 w2 w3 => [modeOpcode 0x2A m, w0, w1, w2, w3]
  | .c1EncByte m imm => [modeOpcode 0x2C m, imm]
  | .c1DecByte m imm => [modeOpcode 0x2E m, imm]
  | .cfEnc m ctl data => modeOpcode 0x30 m :: ctl :: lengthAndData data
  | .cfDec m ctl nb bits => modeOpcode 0x32 m :: ctl :: (u16Bytes nb ++ bits)
  | .nhSuc cnt x0 x1 x2 x3 => [0x40, cnt, x0, x1, x2, x3]

/-! ### An opcode-table word as a command buffer -/

/-- The total length R61 gives the command whose bytes begin with `c`, its missing bytes read as 0; a buffer whose opcode
is illegal has the length it has. -/
def commandLength (c : Bytes) : Nat :=
  let op := (c.getD 0 0).toNat
  if op = 0x10 ∨ op = 0x11 ∨ op = 0x14 ∨ op = 0x19 ∨ (0x24 ≤ op ∧ op ≤ 0x29) ∨ (0x2C ≤ op ∧ op ≤ 0x2F) then 2
  else if op = 0x2A ∨ op = 0x2B then 5
  else if op = 0x40 then 6
  else if op = 0x21 then 7
  else if op = 0x16 ∨ op = 0x17 then 2 + (c.getD 1 0).toNat
  else if op = 0x12 ∨ op = 0x30 ∨ op = 0x31 then 3 + (c.getD 2 0).toNat
  else if op = 0x13 ∨ op = 0x15 ∨ op = 0x32 ∨ op = 0x33 then
    4 + streamBytes (u16OfBytes (c.getD 2 0) (c.getD 3 0)).toNat
  else c.length

/-- The `nbits` low bits of `w` as bytes, the least significant first. -/
def tableBytes (nbits w : Nat) : Bytes :=
  (List.range ((nbits + 7) / 8)).map fun j => BitVec.ofNat 8 (w >>> (8 * j))

/-- The command buffer of an opcode-table word: its bytes, then zero bytes up to the exact length its format asks for
(log 7). -/
def tableCommand (nbits w : Nat) : Bytes :=
  let c := tableBytes nbits w
  c ++ List.replicate (commandLength c - c.length) 0

/-- The command the decoder reads from an opcode-table word. -/
def decodeTableWord (nbits w : Nat) : Option Instr :=
  match decode (tableCommand nbits w) with
  | .ok i => some i
  | .error _ => none

end Sys2Proof
end

