-- ==== Sys2Proof/Machine/Check.lean ====
section
/-! DEFINITION. Odd parity, the standard frame and CRC_A (41_frame_codec.md R110, R113, R120, R123). -/

namespace Sys2Proof.Machine

/-- `xor_all(v)` (00_scope.md R10): the XOR of all bits of `v`. -/
def xorAll {w : Nat} (v : BitVec w) : Bool :=
  (bitsOf w v).foldr xor false

/-- The odd parity bit of a byte (R110): `1 ^ xor_all(b)`. -/
def oddpar (b : Byte) : Bool :=
  true ^^ xorAll b

/-- The bits of one byte of a standard frame (R113): its data bits, bit 0 first, then its parity bit. -/
def stdByteBits (b : Byte) : Bits :=
  bitsOf 8 b ++ [oddpar b]

/-- `std_bits(d)` (R113). -/
def stdBits (d : Bytes) : Bits :=
  d.flatMap stdByteBits

/-- The 9-bit groups of a received frame of `n` bytes (R115, R184): group `j` is the eight bits `s[9j..9j+8)` and the
parity bit `s[9j+8]`. -/
def frameGroups (n : Nat) (s : Bits) : List (Bits × Bool) :=
  (List.range n).map fun j => ((s.drop (9 * j)).take 8, s.getD (9 * j + 8) false)

/-- The CRC_A polynomial (00_scope.md R7). -/
def crcPoly : BitVec 16 := 0x8408

/-- The CRC_A initial value (00_scope.md R7). -/
def crcInit : BitVec 16 := 0x6363

/-- One of the eight shifts of `crc_step` (R120). -/
def crcShift (c : BitVec 16) : BitVec 16 :=
  if c.getLsbD 0 then (c >>> 1) ^^^ crcPoly else c >>> 1

/-- `crc_step(c, b)` (R120). -/
def crcStep (c : BitVec 16) (b : Byte) : BitVec 16 :=
  crcShift^[8] (c ^^^ b.setWidth 16)

/-- `crc_a(d)` (R120): `crc_step` folded over `d` from 0x6363; no final XOR. -/
def crcA (d : Bytes) : BitVec 16 :=
  d.foldl crcStep crcInit

/-- The frame `d` with its CRC_A appended, low byte first, when the flag C asks for it (R46, R114, R182). -/
def withCrc (c : Bool) (d : Bytes) : Bytes :=
  if c then d ++ u16Bytes (crcA d) else d

/-- `d[0..n-2)`, n = len(d): a frame without its two CRC bytes (R115, R123). -/
def dropCrc (d : Bytes) : Bytes :=
  d.take (d.length - 2)

/-- `crc_ok(d)` (R123), for a byte string of at least two bytes. -/
def crcOk (d : Bytes) : Bool :=
  crcA (dropCrc d) == u16OfBytes (d.getD (d.length - 2) 0) (d.getD (d.length - 1) 0)

/-- The payload of a decoded frame (R115, R184): without the CRC bytes when the flag C is set. -/
def framePayload (c : Bool) (d : Bytes) : Bytes :=
  if c then dropCrc d else d

end Sys2Proof.Machine
end

