-- ==== Sys2Proof/Machine/Cipher.lean ====
section
/-! DEFINITION. The CRYPTO1 register: feedback, filter and shift as functions of the 48-bit value (42_crypto1.md R141 to R144). -/

namespace Sys2Proof.Machine

/-- The linear feedback function `L(LFSR)` (R142): the XOR of the 18 tap cells. -/
def feedback (x : BitVec 48) : Bool :=
  x.getLsbD 0 ^^ x.getLsbD 5 ^^ x.getLsbD 9 ^^ x.getLsbD 10 ^^ x.getLsbD 12 ^^ x.getLsbD 14 ^^ x.getLsbD 15
    ^^ x.getLsbD 17 ^^ x.getLsbD 19 ^^ x.getLsbD 24 ^^ x.getLsbD 25 ^^ x.getLsbD 27 ^^ x.getLsbD 29 ^^ x.getLsbD 35
    ^^ x.getLsbD 39 ^^ x.getLsbD 41 ^^ x.getLsbD 42 ^^ x.getLsbD 43

/-- The filter's Boolean function `fa` (R143). -/
def filterA (y0 y1 y2 y3 : Bool) : Bool :=
  ((y0 || y1) ^^ (y0 && y3)) ^^ (y2 && ((y0 ^^ y1) || y3))

/-- The filter's Boolean function `fb` (R143). -/
def filterB (y0 y1 y2 y3 : Bool) : Bool :=
  ((y0 && y1) || y2) ^^ ((y0 ^^ y1) && (y2 || y3))

/-- The filter's Boolean function `fc` (R143). -/
def filterC (y0 y1 y2 y3 y4 : Bool) : Bool :=
  (y0 || ((y1 || y4) && (y3 ^^ y4))) ^^ ((y0 ^^ (y1 && y3)) && ((y2 ^^ y3) || (y1 && y4)))

/-- The filter output `f(LFSR)` (R144), the keystream bit of the next clock step (R145). -/
def filter (x : BitVec 48) : Bool :=
  filterC
    (filterA (x.getLsbD 9) (x.getLsbD 11) (x.getLsbD 13) (x.getLsbD 15))
    (filterB (x.getLsbD 17) (x.getLsbD 19) (x.getLsbD 21) (x.getLsbD 23))
    (filterB (x.getLsbD 25) (x.getLsbD 27) (x.getLsbD 29) (x.getLsbD 31))
    (filterA (x.getLsbD 33) (x.getLsbD 35) (x.getLsbD 37) (x.getLsbD 39))
    (filterB (x.getLsbD 41) (x.getLsbD 43) (x.getLsbD 45) (x.getLsbD 47))

/-- The shift (R141): every cell moves one place toward cell 0 and `new` enters at cell 47. -/
def shiftIn (new : Bool) (x : BitVec 48) : BitVec 48 :=
  (x >>> 1) ||| ((BitVec.ofBool new).setWidth 48 <<< 47)

/-- The register a key is loaded into (R150): key byte `a` in cells `8a` to `8a+7`, its bit 0 lowest. -/
def keyRegister (k0 k1 k2 k3 k4 k5 : Byte) : BitVec 48 :=
  k5 ++ k4 ++ k3 ++ k2 ++ k1 ++ k0

/-- The register as six bytes, in the key layout (R153). -/
def registerBytes (x : BitVec 48) : Bytes :=
  [x.extractLsb' 0 8, x.extractLsb' 8 8, x.extractLsb' 16 8, x.extractLsb' 24 8, x.extractLsb' 32 8, x.extractLsb' 40 8]

end Sys2Proof.Machine
end

