-- ==== Sys2Proof/Machine/State.lean ====
section
/-! DEFINITION. The architectural state of the block (10_state.md R20), the host's side of its interface as plain data, and
the power-on state (70_reset_and_hazards.md R230). -/

namespace Sys2Proof.Machine

/-- Why the machine stops with a fault: never. The spec gives the block no trap and no stop: a failing command "ends with a
status, and the next command the host submits runs normally" (60_exceptions.md R212), which is a next state (log 6). The type
has no constructor, so no step can answer with it. -/
inductive Fault where
  deriving DecidableEq, Repr

/-- Why a step has no meaning. -/
inductive Refusal where
  /-- Raised by an arm of `exec` whose command has no meaning yet; safe (the model stops where the hardware goes on).
  No arm raises it: every command has its meaning. -/
  | notModelled (mnemonic : String)
  deriving DecidableEq, Repr

/-- The block's six registers (R20) and the two buffers of its interface (20_memory.md R40). -/
structure State where
  /-- `LFSR` (R21): the engine's 48-bit shift register; cell `i` is bit `i`. -/
  lfsr : BitVec 48
  /-- `KEYED` (R23): the engine holds state derived from a loaded key. -/
  keyed : Bool
  /-- `CLKCNT` (R22): clock steps since the last C1_LOAD_KEY, C1_DISCARD or reset, modulo 2^32. -/
  clkcnt : BitVec 32
  /-- `CRCACC` (R25): the accumulator of the incremental CRC_A. -/
  crcacc : BitVec 16
  /-- `ERRSTICKY` (R26): the error statuses since the last CLEAR_ERR or reset; read through `State.sticky`. -/
  errSticky : Byte
  /-- `LASTST` (R28): the status code of the last command other than STATUS. -/
  lastSt : Byte
  /-- The command buffers the host has submitted and the block has not begun, oldest first (the model's own field;
  R40, R54; log 1). -/
  pending : List Bytes
  /-- The response buffers the block has returned, oldest first (the model's own field; R40, R71, R72; log 1). -/
  responses : List Bytes
  deriving DecidableEq, Repr

/-- The power-on state (R230); no command has been submitted and none answered. -/
def State.reset : State where
  lfsr := 0x000000000000
  keyed := false
  clkcnt := 0x00000000
  crcacc := 0x6363
  errSticky := 0x00
  lastSt := 0x00
  pending := []
  responses := []

end Sys2Proof.Machine
end

