-- ==== Sys2Proof/Machine/Flags.lean ====
section
/-! DEFINITION. The status codes and the two registers that record them (60_exceptions.md R200, R206; 10_state.md R26, R28). -/

namespace Sys2Proof.Machine

/-- The seven statuses of R200; no other is ever returned (93_implementation_defined.md U10). -/
inductive Status where
  | ok
  | illegalOpcode
  | reserved
  | length
  | notKeyed
  | parity
  | crc
  deriving DecidableEq, Repr

/-- The status code of R200. -/
def Status.code : Status → Byte
  | .ok => 0x00
  | .illegalOpcode => 0x01
  | .reserved => 0x02
  | .length => 0x03
  | .notKeyed => 0x04
  | .parity => 0x05
  | .crc => 0x06

/-- The bit of `ERRSTICKY` a failing status sets (R26): `1 << (c-1)`; OK sets none. -/
def Status.stickyBit : Status → Byte
  | .ok => 0x00
  | .illegalOpcode => 0x01
  | .reserved => 0x02
  | .length => 0x04
  | .notKeyed => 0x08
  | .parity => 0x10
  | .crc => 0x20

/-- `ERRSTICKY` as it reads (R26): bits 7:6 are hardwired 0. -/
def State.sticky (s : State) : Byte :=
  s.errSticky &&& 0x3F

/-- `ERRSTICKY` after a command that ended with status `st` (R206): a failure ORs its bit in. -/
def stickyAfter (st : Status) (s : State) : Byte :=
  if st = .ok then s.errSticky else s.sticky ||| st.stickyBit

/-- `LASTST` after a command that ended with status `st` (R28, R206): STATUS leaves it alone. -/
def lastStAfter (isStatus : Bool) (st : Status) (s : State) : Byte :=
  if isStatus then s.lastSt else st.code

end Sys2Proof.Machine
end

