-- ==== Sys2Proof/Machine/Operands.lean ====
section
/-! DEFINITION. The operand forms: the fields of `IMM` and `CTL`, their reserved bits, and the range of `LEN` and `NB`
(30_encoding.md R62 to R64; 60_exceptions.md R202, R203). -/

namespace Sys2Proof.Machine

/-- `MAX_FRAME_BYTES` (00_scope.md R7): the longest frame, CRC included. -/
abbrev maxFrameBytes : Nat := 32

/-- No bit of `b` inside `mask` is 1: the reserved bits of R202 are all 0. -/
def reservedClear (mask b : Byte) : Bool :=
  b &&& mask == 0

/-- The CRC flag C, `CTL[0]` (R62). -/
def crcFlag (ctl : Byte) : Bool :=
  ctl.getLsbD 0

/-- The reserved bits `CTL[7:1]` of formats F and S (R62). -/
def ctlReserved : Byte := 0xFE

/-- The range of FC_ENC_STD and CF_ENC (R114, R182): `1 <= L` and `L + 2*C <= MAX_FRAME_BYTES`. -/
def encodeRange (c : Bool) (len : Nat) : Bool :=
  decide (1 ≤ len) && decide (len + 2 * c.toNat ≤ maxFrameBytes)

/-- The range of FC_DEC_STD and CF_DEC (R115, R184): `NB` is a multiple of 9, `n = NB/9` is in 1..MAX_FRAME_BYTES, and a
frame whose CRC is checked has at least 3 bytes. -/
def decodeRange (c : Bool) (nb : Nat) : Bool :=
  nb % 9 == 0 && decide (1 ≤ nb / 9) && decide (nb / 9 ≤ maxFrameBytes) && (!c || decide (3 ≤ nb / 9))

end Sys2Proof.Machine
end

