-- ==== Sys2Proof/Machine/Ops.lean ====
section
/-! DEFINITION. The shared operations of the commands: ending a command, raising a status, the checks, clocking and discarding the
cipher, and running a frame through it (60_exceptions.md R201, R206; 42_crypto1.md R146; 43_crypto_frames.md R181 to R185). -/

namespace Sys2Proof.Machine

/-- What a command answers. -/
abbrev Result := Host.Outcome State Fault Refusal

/-! ### Ending a command -/

/-- The end of a command (R71, R201, R206): the epilogue writes `LASTST` (but for STATUS) and, on failure, `ERRSTICKY`; the
response is the status code and the payload. -/
def endCommand (isStatus : Bool) (st : Status) (payload : Bytes) (s : State) : State :=
  { s with
    lastSt := lastStAfter isStatus st s
    errSticky := stickyAfter st s
    responses := s.responses ++ [st.code :: payload] }

/-- `respond(payload)` (00_scope.md R11): the command ends with status OK. -/
def respond (payload : Bytes) (s : State) : Result :=
  .next (endCommand false .ok payload s)

/-- `respond(payload)` of STATUS, the one command that skips the write of `LASTST` (R101, R206). -/
def respondStatus (payload : Bytes) (s : State) : Result :=
  .next (endCommand true .ok payload s)

/-- `raise S` (00_scope.md R11, R201): the command ends with that status and the one-byte response. The block has no trap:
this is the whole of what an error does (R212). -/
def raise (st : Status) (s : State) : Result :=
  .next (endCommand false st [] s)

/-- `require c else raise S`: go on with the command when the check holds, otherwise end it (R205). -/
def require (c : Bool) (st : Status) (s : State) (go : Result) : Result :=
  if c then go else raise st s

/-! ### The cipher -/

/-- The clock step `clock(in, e)` (R146): the keystream bit of the state before the shift (R145), and the state after. -/
def clock (inp e : Bool) (s : State) : Bool × State :=
  let ks := filter s.lfsr
  let new := feedback s.lfsr ^^ inp ^^ (e && ks)
  (ks, { s with lfsr := shiftIn new s.lfsr, clkcnt := s.clkcnt + 1 })

/-- One clock step for each input bit, in order (R43); the keystream bits in the same order. -/
def clockBits (e : Bool) : Bits → State → Bits × State
  | [], s => ([], s)
  | b :: bs, s =>
    let r := clock b e s
    let q := clockBits e bs r.2
    (r.1 :: q.1, q.2)

/-- The eight clock steps over a byte, bit 0 first, and the keystream byte (R156). -/
def clockByte (e : Bool) (b : Byte) (s : State) : Byte × State :=
  let r := clockBits e (bitsOf 8 b) s
  (byteOfBits r.1, r.2)

/-- `clockByte` over a byte string, byte 0 first (R43, R157). -/
def clockBytes (e : Bool) : Bytes → State → Bytes × State
  | [], s => ([], s)
  | b :: bs, s =>
    let r := clockByte e b s
    let q := clockBytes e bs r.2
    (r.1 :: q.1, q.2)

/-- The feedback inputs of the mode P (R67): the operand's bits when P = 1, zeros when P = 0. -/
def feedbackInputs (p : Bool) (bs : Bits) : Bits :=
  bs.map fun b => p && b

/-- `discard()` (R151, R185): the cipher state is thrown away. -/
def discard (s : State) : State :=
  { s with lfsr := 0, keyed := false, clkcnt := 0 }

/-! ### Encrypted frames -/

/-- One byte of an encrypted frame (R182): its data bits XOR the keystream of its eight clock steps, then its parity bit XOR
the filter output of the state after them, which is not clocked (R181). -/
def encryptByte (p : Bool) (b : Byte) (s : State) : Bits × State :=
  let r := clockBits false (feedbackInputs p (bitsOf 8 b)) s
  (List.zipWith xor (bitsOf 8 b) r.1 ++ [oddpar b ^^ filter r.2.lfsr], r.2)

/-- The stream bits of an encrypted frame, byte 0 first (R182). -/
def encryptFrame (p : Bool) : Bytes → State → Bits × State
  | [], s => ([], s)
  | b :: bs, s =>
    let r := encryptByte p b s
    let q := encryptFrame p bs r.2
    (r.1 ++ q.1, q.2)

/-- One byte of a received encrypted frame (R184): the plaintext byte, and whether its decrypted parity bit is right. -/
def decryptByte (p : Bool) (g : Bits × Bool) (s : State) : (Byte × Bool) × State :=
  let r := clockBits p (feedbackInputs p g.1) s
  let d := byteOfBits (List.zipWith xor g.1 r.1)
  ((d, (g.2 ^^ filter r.2.lfsr) == oddpar d), r.2)

/-- The bytes of a received encrypted frame, each with its parity verdict, byte 0 first (R184). -/
def decryptFrame (p : Bool) : List (Bits × Bool) → State → List (Byte × Bool) × State
  | [], s => ([], s)
  | g :: gs, s =>
    let r := decryptByte p g s
    let q := decryptFrame p gs r.2
    (r.1 :: q.1, q.2)

end Sys2Proof.Machine
end

