-- ==== Sys2Proof/Machine/Control.lean ====
section
/-! DEFINITION. Unit 0, block control: NOP, STATUS, CLEAR_ERR, BLOCK_RESET (40_control.md R100 to R103). -/

namespace Sys2Proof.Machine

/-- The status record (10_state.md R29). -/
def statusRecord (s : State) : Bytes :=
  [bitByte s.keyed, s.sticky, s.lastSt] ++ u32Bytes s.clkcnt

/-- NOP (R100). -/
def execNop (s : State) : Result :=
  respond [] s

/-- STATUS (R101). -/
def execStatus (s : State) : Result :=
  respondStatus (statusRecord s) s

/-- CLEAR_ERR (R102). -/
def execClearErr (s : State) : Result :=
  respond [] { s with errSticky := 0x00 }

/-- BLOCK_RESET (R103): every register of R20 at its reset value; the epilogue writes `LASTST`. -/
def execBlockReset (s : State) : Result :=
  respond [] { s with lfsr := 0, keyed := false, clkcnt := 0, crcacc := crcInit, errSticky := 0x00 }

end Sys2Proof.Machine
end

