-- ==== Sys2Proof/Machine/Crypto1.lean ====
section
/-! DEFINITION. Unit 2, the CRYPTO1 engine (42_crypto1.md R150 to R159). -/

namespace Sys2Proof.Machine

/-- C1_DISCARD (R151). -/
def execC1Discard (s : State) : Result :=
  respond [] (discard s)

/-- C1_LOAD_KEY (R150): whatever the state before it (70_reset_and_hazards.md R233). -/
def execC1LoadKey (k0 k1 k2 k3 k4 k5 : Byte) (s : State) : Result :=
  respond [] { s with lfsr := keyRegister k0 k1 k2 k3 k4 k5, keyed := true, clkcnt := 0 }

/-- C1_PEEK (R152): the next keystream bit, without a clock step. -/
def execC1Peek (s : State) : Result :=
  require s.keyed .notKeyed s <|
  respond [bitByte (filter s.lfsr)] s

/-- C1_READ_STATE (R153): allowed while unkeyed. -/
def execC1ReadState (s : State) : Result :=
  respond (registerBytes s.lfsr) s

/-- C1_BIT.E (R154). -/
def execC1Bit (m : Bool) (imm : Byte) (s : State) : Result :=
  require (reservedClear 0xFE imm) .reserved s <|
  require s.keyed .notKeyed s <|
  let r := clock (imm.getLsbD 0) m s
  respond [bitByte r.1] r.2

/-- C1_NIBBLE.E (R155). -/
def execC1Nibble (m : Bool) (imm : Byte) (s : State) : Result :=
  require (reservedClear 0xF0 imm) .reserved s <|
  require s.keyed .notKeyed s <|
  let r := clockBits m (bitsOf 4 imm) s
  respond [byteOfBits r.1] r.2

/-- C1_BYTE.E (R156). -/
def execC1Byte (m : Bool) (imm : Byte) (s : State) : Result :=
  require s.keyed .notKeyed s <|
  let r := clockByte m imm s
  respond [r.1] r.2

/-- C1_WORD.E (R157). -/
def execC1Word (m : Bool) (w0 w1 w2 w3 : Byte) (s : State) : Result :=
  require s.keyed .notKeyed s <|
  let r := clockBytes m [w0, w1, w2, w3] s
  respond r.1 r.2

/-- C1_ENC_BYTE.P (R158): ciphertext and keystream; with P = 1 the plaintext bits are fed back. -/
def execC1EncByte (m : Bool) (imm : Byte) (s : State) : Result :=
  require s.keyed .notKeyed s <|
  let r := clockBits false (feedbackInputs m (bitsOf 8 imm)) s
  respond [imm ^^^ byteOfBits r.1, byteOfBits r.1] r.2

/-- C1_DEC_BYTE.P (R159): plaintext and keystream; with P = 1 the ciphertext bits are clocked in encrypted-input mode, so that
the register takes in the plaintext (R148). -/
def execC1DecByte (m : Bool) (imm : Byte) (s : State) : Result :=
  require s.keyed .notKeyed s <|
  let r := clockBits m (feedbackInputs m (bitsOf 8 imm)) s
  respond [imm ^^^ byteOfBits r.1, byteOfBits r.1] r.2

end Sys2Proof.Machine
end

