-- ==== Sys2Proof/Machine/CryptoFrames.lean ====
section
/-! DEFINITION. Unit 3, encrypted framing (43_crypto_frames.md R180 to R185). -/

namespace Sys2Proof.Machine

/-- CF_ENC.P (R182): the CRC is computed over the plaintext and encrypted with it (R180). -/
def execCfEnc (m : Bool) (ctl : Byte) (data : Bytes) (s : State) : Result :=
  require (reservedClear ctlReserved ctl) .reserved s <|
  require (encodeRange (crcFlag ctl) data.length) .length s <|
  require s.keyed .notKeyed s <|
  let r := encryptFrame m (withCrc (crcFlag ctl) data) s
  respond (stream r.1) r.2

/-- CF_DEC.P (R184): every byte is clocked and checked before PARITY is reported, and PARITY before CRC; both discard the
cipher (R185). -/
def execCfDec (m : Bool) (ctl : Byte) (nb : BitVec 16) (bits : Bytes) (s : State) : Result :=
  require (reservedClear ctlReserved ctl) .reserved s <|
  require (decodeRange (crcFlag ctl) nb.toNat) .length s <|
  require s.keyed .notKeyed s <|
  let r := decryptFrame m (frameGroups (nb.toNat / 9) (unpackBits nb.toNat bits)) s
  let d := r.1.map Prod.fst
  require (r.1.all Prod.snd) .parity (discard r.2) <|
  require (!crcFlag ctl || crcOk d) .crc (discard r.2) <|
  respond (framePayload (crcFlag ctl) d) r.2

end Sys2Proof.Machine
end

