-- ==== Sys2Proof/Config.lean ====
section
/-! DEFINITION. What an instance of the block fixes and the spec leaves open (00_scope.md R7, 10_state.md R27). -/

namespace Sys2Proof

/-- `SHORT_FRAME_PARITY` (R7, R27; OPEN, 90_conflicts.md C3): whether FC_ENC_SHORT appends an odd parity
bit. A configuration constant of the block instance, "not state"; the spec gives it no value, so it has no body here
and nothing can be proved of its value (log 3). -/
opaque Config.shortFrameParity : Bool

end Sys2Proof
end

