-- ==== Sys2Proof/Machine/FrameCodec.lean ====
section
/-! DEFINITION. Unit 1, the plain frame codec (41_frame_codec.md R110 to R129). -/

namespace Sys2Proof.Machine

/-- FC_PARITY (R111). -/
def execFcParity (imm : Byte) (s : State) : Result :=
  respond [bitByte (oddpar imm)] s

/-- The bits of a short frame (R112): the seven bits of the value, then their odd parity bit when the instance's
`SHORT_FRAME_PARITY` says so. -/
def shortBits (withParity : Bool) (v : BitVec 7) : Bits :=
  bitsOf 7 v ++ (if withParity then [true ^^ xorAll v] else [])

/-- FC_ENC_SHORT (R112). -/
def execFcEncShort (imm : Byte) (s : State) : Result :=
  require (reservedClear 0x80 imm) .reserved s <|
  respond (stream (shortBits Config.shortFrameParity (imm.extractLsb' 0 7))) s

/-- FC_ENC_STD (R114). -/
def execFcEncStd (ctl : Byte) (data : Bytes) (s : State) : Result :=
  require (reservedClear ctlReserved ctl) .reserved s <|
  require (encodeRange (crcFlag ctl) data.length) .length s <|
  respond (stream (stdBits (withCrc (crcFlag ctl) data))) s

/-- The bytes of a received standard frame and whether each one's parity bit is right (R115, R207). -/
def stdFrameBytes (nb : BitVec 16) (bits : Bytes) : List (Byte × Bool) :=
  (frameGroups (nb.toNat / 9) (unpackBits nb.toNat bits)).map fun g => (byteOfBits g.1, g.2 == oddpar (byteOfBits g.1))

/-- FC_DEC_STD (R115): every parity bit is checked before the CRC (R205, R207, R208). -/
def execFcDecStd (ctl : Byte) (nb : BitVec 16) (bits : Bytes) (s : State) : Result :=
  require (reservedClear ctlReserved ctl) .reserved s <|
  require (decodeRange (crcFlag ctl) nb.toNat) .length s <|
  let r := stdFrameBytes nb bits
  let d := r.map Prod.fst
  require (r.all Prod.snd) .parity s <|
  require (!crcFlag ctl || crcOk d) .crc s <|
  respond (framePayload (crcFlag ctl) d) s

/-- FC_ENC_4BIT (R117). -/
def execFcEnc4Bit (imm : Byte) (s : State) : Result :=
  require (reservedClear 0xF0 imm) .reserved s <|
  respond (stream (bitsOf 4 imm)) s

/-- FC_DEC_4BIT (R118): `CTL` is wholly reserved. -/
def execFcDec4Bit (ctl : Byte) (nb : BitVec 16) (bits : Bytes) (s : State) : Result :=
  require (reservedClear 0xFF ctl) .reserved s <|
  require (nb == 4) .length s <|
  respond [byteOfBits (unpackBits 4 bits)] s

/-- FC_CRC (R121). -/
def execFcCrc (data : Bytes) (s : State) : Result :=
  require (decide (data.length ≤ maxFrameBytes)) .length s <|
  respond (u16Bytes (crcA data)) s

/-- FC_CRC_CHECK (R122): a wrong CRC is a result, not a status (R208). -/
def execFcCrcCheck (data : Bytes) (s : State) : Result :=
  require (decide (2 ≤ data.length) && decide (data.length ≤ maxFrameBytes)) .length s <|
  respond [bitByte (crcOk data)] s

/-- FC_CRC_INIT (R127). -/
def execFcCrcInit (s : State) : Result :=
  respond [] { s with crcacc := crcInit }

/-- FC_CRC_UPDATE (R128). -/
def execFcCrcUpdate (imm : Byte) (s : State) : Result :=
  respond [] { s with crcacc := crcStep s.crcacc imm }

/-- FC_CRC_READ (R129). -/
def execFcCrcRead (s : State) : Result :=
  respond (u16Bytes s.crcacc) s

end Sys2Proof.Machine
end

