-- ==== Sys2Proof/Machine/NonceHelper.lean ====
section
/-! DEFINITION. Unit 4, the nonce helper (44_nonce_helper.md R190, R191). -/

namespace Sys2Proof.Machine

/-- One step of the successor (R190). -/
def sucStep (y : BitVec 32) : BitVec 32 :=
  (y >>> 1)
    ||| ((BitVec.ofBool (y.getLsbD 16 ^^ y.getLsbD 18 ^^ y.getLsbD 19 ^^ y.getLsbD 21)).setWidth 32 <<< 31)

/-- `suc(X, n)` (R190). -/
def suc (x0 x1 x2 x3 : Byte) (n : Nat) : Bytes :=
  u32Bytes (sucStep^[n] (u32OfBytes x0 x1 x2 x3))

/-- NH_SUC (R191): no reserved bits, no range, no key. -/
def execNhSuc (cnt x0 x1 x2 x3 : Byte) (s : State) : Result :=
  respond (suc x0 x1 x2 x3 cnt.toNat) s

end Sys2Proof.Machine
end

