-- ==== Sys2Proof/Machine/Dispatch.lean ====
section
/-! DEFINITION. The meaning of each command, one arm per constructor (30_encoding.md R73). -/

namespace Sys2Proof.Machine

def exec (i : Instr) (s : State) : Host.Outcome State Fault Refusal :=
  match i with
  | .nop => Sys2Proof.Machine.execNop s
  | .status => Sys2Proof.Machine.execStatus s
  | .clearErr => Sys2Proof.Machine.execClearErr s
  | .blockReset => Sys2Proof.Machine.execBlockReset s
  | .fcParity imm => Sys2Proof.Machine.execFcParity imm s
  | .fcEncShort imm => Sys2Proof.Machine.execFcEncShort imm s
  | .fcEncStd ctl data => Sys2Proof.Machine.execFcEncStd ctl data s
  | .fcDecStd ctl nb bits => Sys2Proof.Machine.execFcDecStd ctl nb bits s
  | .fcEnc4Bit imm => Sys2Proof.Machine.execFcEnc4Bit imm s
  | .fcDec4Bit ctl nb bits => Sys2Proof.Machine.execFcDec4Bit ctl nb bits s
  | .fcCrc data => Sys2Proof.Machine.execFcCrc data s
  | .fcCrcCheck data => Sys2Proof.Machine.execFcCrcCheck data s
  | .fcCrcInit => Sys2Proof.Machine.execFcCrcInit s
  | .fcCrcUpdate imm => Sys2Proof.Machine.execFcCrcUpdate imm s
  | .fcCrcRead => Sys2Proof.Machine.execFcCrcRead s
  | .c1Discard => Sys2Proof.Machine.execC1Discard s
  | .c1LoadKey k0 k1 k2 k3 k4 k5 => Sys2Proof.Machine.execC1LoadKey k0 k1 k2 k3 k4 k5 s
  | .c1Peek => Sys2Proof.Machine.execC1Peek s
  | .c1ReadState => Sys2Proof.Machine.execC1ReadState s
  | .c1Bit m imm => Sys2Proof.Machine.execC1Bit m imm s
  | .c1Nibble m imm => Sys2Proof.Machine.execC1Nibble m imm s
  | .c1Byte m imm => Sys2Proof.Machine.execC1Byte m imm s
  | .c1Word m w0 w1 w2 w3 => Sys2Proof.Machine.execC1Word m w0 w1 w2 w3 s
  | .c1EncByte m imm => Sys2Proof.Machine.execC1EncByte m imm s
  | .c1DecByte m imm => Sys2Proof.Machine.execC1DecByte m imm s
  | .cfEnc m ctl data => Sys2Proof.Machine.execCfEnc m ctl data s
  | .cfDec m ctl nb bits => Sys2Proof.Machine.execCfDec m ctl nb bits s
  | .nhSuc cnt x0 x1 x2 x3 => Sys2Proof.Machine.execNhSuc cnt x0 x1 x2 x3 s

end Sys2Proof.Machine
end

