-- ==== Sys2Proof/Machine/Command.lean ====
section
/-! DEFINITION. A command buffer from its first check to its response (30_encoding.md R73; 60_exceptions.md R205, R206). -/

namespace Sys2Proof.Machine

/-- The status of a buffer that fails the first two checks of R205. -/
def errorStatus : DecodeError → Status
  | .illegalOpcode => .illegalOpcode
  | .length => .length

/-- `OP = 0x01`: the epilogue leaves `LASTST` alone; an empty buffer counts as not STATUS (R206). -/
def isStatusCommand (c : Bytes) : Bool :=
  c.head? == some 0x01

/-- One command buffer: the command it holds runs, and a buffer that holds none ends with its status and the epilogue. -/
def execCommand (c : Bytes) (s : State) : Result :=
  match decode c with
  | .ok i => exec i s
  | .error e => .next (endCommand (isStatusCommand c) (errorStatus e) [] s)

end Sys2Proof.Machine
end

