-- ==== Sys2Proof/Machine/Step.lean ====
section
/-! DEFINITION. One step of the machine: the block takes the oldest command the host has submitted and executes it atomically
(20_memory.md R41, R50, R54). -/

namespace Sys2Proof.Machine

/-- One step. With no command pending the block waits and keeps its state (60_exceptions.md R220, 70_reset_and_hazards.md R231;
log 2). -/
def step (s : State) : Host.Outcome State Fault Refusal :=
  match s.pending with
  | [] => .next s
  | c :: rest => execCommand c { s with pending := rest }

/-- `s` with the command of an opcode-table word submitted ahead of every other, so that the next step runs it (log 4). -/
def State.withFetchWord (s : State) (nbits w : Nat) : State :=
  { s with pending := tableCommand nbits w :: s.pending }

end Sys2Proof.Machine
end

