-- ==== Sys2Proof/Safety.lean ====
section
/-! DEFINITION. The terms the claims use: how a command may end, what a buffer's status must be before it executes, read from the
tables of the spec and not from the model's decoder, the sequences a host submits, and the invariant of the state. -/

namespace Sys2Proof.Safety

open Sys2Proof.Machine

/-! ### How a command ends -/

/-- `s` after a command that ended OK with this payload and wrote no other register (30_encoding.md R71; 60_exceptions.md R206). -/
def endedOk (payload : Bytes) (s : State) : State :=
  { s with lastSt := 0x00, responses := s.responses ++ [0x00 :: payload] }

/-- `s` after a command that ended with the failing status code `code` and wrote no other register: the epilogue of
60_exceptions.md R206 and the one-byte response of R201. -/
def endedWith (code : Byte) (s : State) : State :=
  { s with
    lastSt := code
    errSticky := s.sticky ||| (1#8 <<< (code.toNat - 1))
    responses := s.responses ++ [[code]] }

/-- `endedWith` for the buffer `c`: a STATUS that fails leaves `LASTST` alone (40_control.md R101). -/
def commandEndedWith (c : Bytes) (code : Byte) (s : State) : State :=
  { endedWith code s with lastSt := if c.head? = some 0x01 then s.lastSt else code }

/-- The commands of a host in order, each one's meaning on the state the one before left; `none` if one does not end. -/
def execAll : List Instr → State → Option State
  | [], s => some s
  | i :: is, s =>
    match exec i s with
    | .next t => execAll is t
    | .fault _ => none
    | .refused _ => none

/-! ### What a buffer's status must be, from the tables of R61, R66 and R202 to R204 -/

/-- The formats of 30_encoding.md R61. -/
inductive Format where
  | A | B | W | N | K | L | F | S
  deriving DecidableEq, Repr

/-- The format of an opcode (R66); none for the illegal ones. -/
def opcodeFormat (op : Nat) : Option Format :=
  if op ∈ [0x00, 0x01, 0x02, 0x03, 0x18, 0x1A, 0x20, 0x22, 0x23] then some .A
  else if op ∈ [0x10, 0x11, 0x14, 0x19, 0x24, 0x25, 0x26, 0x27, 0x28, 0x29, 0x2C, 0x2D, 0x2E, 0x2F] then some .B
  else if op ∈ [0x2A, 0x2B] then some .W
  else if op = 0x40 then some .N
  else if op = 0x21 then some .K
  else if op ∈ [0x16, 0x17] then some .L
  else if op ∈ [0x12, 0x30, 0x31] then some .F
  else if op ∈ [0x13, 0x15, 0x32, 0x33] then some .S
  else none

/-- The opcodes 30_encoding.md R68 calls illegal. -/
def illegalOpcode (op : Nat) : Prop :=
  (0x04 ≤ op ∧ op ≤ 0x0F) ∨ (0x1B ≤ op ∧ op ≤ 0x1F) ∨ (0x34 ≤ op ∧ op ≤ 0x3F) ∨ (0x41 ≤ op ∧ op ≤ 0xFF)

/-- `NB` of a format S buffer (R61). -/
def streamCount (c : Bytes) : Nat :=
  (c.getD 2 0).toNat + 256 * (c.getD 3 0).toNat

/-- The first table of 60_exceptions.md R203: the buffer length is wrong for the format. -/
def lengthWrong (c : Bytes) : Format → Bool
  | .A => c.length != 1
  | .B => c.length != 2
  | .W => c.length != 5
  | .N => c.length != 6
  | .K => c.length != 7
  | .L => decide (c.length < 2) || c.length != 2 + (c.getD 1 0).toNat
  | .F => decide (c.length < 3) || c.length != 3 + (c.getD 2 0).toNat
  | .S => decide (c.length < 4) || c.length != 4 + (streamCount c + 7) / 8

/-- The table of 60_exceptions.md R202: the reserved bits of the byte after the opcode (`IMM` or `CTL`). -/
def reservedMask (op : Nat) : Byte :=
  if op = 0x11 then 0x80
  else if op = 0x14 ∨ op = 0x26 ∨ op = 0x27 then 0xF0
  else if op = 0x24 ∨ op = 0x25 then 0xFE
  else if op = 0x12 ∨ op = 0x13 ∨ (0x30 ≤ op ∧ op ≤ 0x33) then 0xFE
  else if op = 0x15 then 0xFF
  else 0x00

/-- The second table of 60_exceptions.md R203: a count is out of the command's range. -/
def rangeWrong (op : Nat) (c : Bytes) : Bool :=
  let crc := (c.getD 1 0).getLsbD 0
  if op = 0x16 then decide ((c.getD 1 0).toNat > 32)
  else if op = 0x17 then decide ((c.getD 1 0).toNat < 2) || decide ((c.getD 1 0).toNat > 32)
  else if op = 0x12 ∨ op = 0x30 ∨ op = 0x31 then
    decide ((c.getD 2 0).toNat < 1) || decide ((c.getD 2 0).toNat + (if crc then 2 else 0) > 32)
  else if op = 0x13 ∨ op = 0x32 ∨ op = 0x33 then
    decide (streamCount c % 9 ≠ 0) || decide (streamCount c / 9 < 1) || decide (streamCount c / 9 > 32)
      || (crc && decide (streamCount c / 9 < 3))
  else if op = 0x15 then decide (streamCount c ≠ 4)
  else false

/-- The opcodes of 60_exceptions.md R204: they read the keystream. -/
def readsKeystream (op : Nat) : Bool :=
  decide (op = 0x22) || (decide (0x24 ≤ op) && decide (op ≤ 0x33))

/-- The status code the checks of 60_exceptions.md R205, steps 1 to 5, give a buffer; none when the command executes. It
depends on the buffer and `KEYED` alone. -/
def checkedStatus (c : Bytes) (keyed : Bool) : Option Byte :=
  match c with
  | [] => some 0x01
  | op :: _ =>
    match opcodeFormat op.toNat with
    | none => some 0x01
    | some f =>
      if lengthWrong c f then some 0x03
      else if c.getD 1 0 &&& reservedMask op.toNat ≠ 0 then some 0x02
      else if rangeWrong op.toNat c then some 0x03
      else if readsKeystream op.toNat && !keyed then some 0x04
      else none

/-- The buffers whose execution can still end with PARITY or CRC (R205, step 6): FC_DEC_STD and CF_DEC. -/
def isDecoder (c : Bytes) : Bool :=
  c.head? == some 0x13 || c.head? == some 0x32 || c.head? == some 0x33

/-! ### Which commands write which register (10_state.md R20) -/

/-- The commands that may write `LFSR` or `CLKCNT` (R20). -/
def writesCipher : Instr → Bool
  | .blockReset | .c1Discard | .c1LoadKey _ _ _ _ _ _ | .c1Bit _ _ | .c1Nibble _ _ | .c1Byte _ _ | .c1Word _ _ _ _ _
  | .c1EncByte _ _ | .c1DecByte _ _ | .cfEnc _ _ _ | .cfDec _ _ _ _ => true
  | .nop | .status | .clearErr | .fcParity _ | .fcEncShort _ | .fcEncStd _ _ | .fcDecStd _ _ _ | .fcEnc4Bit _
  | .fcDec4Bit _ _ _ | .fcCrc _ | .fcCrcCheck _ | .fcCrcInit | .fcCrcUpdate _ | .fcCrcRead | .c1Peek | .c1ReadState
  | .nhSuc _ _ _ _ _ => false

/-- The commands that may write `KEYED` (R20, R23). -/
def writesKeyed : Instr → Bool
  | .blockReset | .c1Discard | .c1LoadKey _ _ _ _ _ _ | .cfDec _ _ _ _ => true
  | .nop | .status | .clearErr | .fcParity _ | .fcEncShort _ | .fcEncStd _ _ | .fcDecStd _ _ _ | .fcEnc4Bit _
  | .fcDec4Bit _ _ _ | .fcCrc _ | .fcCrcCheck _ | .fcCrcInit | .fcCrcUpdate _ | .fcCrcRead | .c1Peek | .c1ReadState
  | .c1Bit _ _ | .c1Nibble _ _ | .c1Byte _ _ | .c1Word _ _ _ _ _ | .c1EncByte _ _ | .c1DecByte _ _ | .cfEnc _ _ _
  | .nhSuc _ _ _ _ _ => false

/-! ### The invariant -/

/-- What holds of every state the block can be in: the cipher registers are 0 while no key is held
(93_implementation_defined.md U19), the hardwired bits of `ERRSTICKY` are 0 (10_state.md R26) and `LASTST` is one of the seven
status codes (60_exceptions.md R200). -/
abbrev Inv (s : State) : Prop :=
  (s.keyed = false → s.lfsr = 0 ∧ s.clkcnt = 0) ∧ s.errSticky &&& 0xC0 = 0 ∧ s.lastSt.toNat ≤ 6

end Sys2Proof.Safety
end

