-- ==== Sys2Proof/Certificates/Slice0/Obligations.lean ====
section
/-! DEFINITION. The statements for the provers. They come from the numbered rules of spec/; a statement that rests on a choice
of the model says so and names its log entry. -/

open Sys2Proof Sys2Proof.Machine Sys2Proof.Safety

/-! ### Encoding (30_encoding.md) -/

/-- R61, R66: every well-formed command is read back from its own buffer, with every operand at every value. -/
def Obligations.DecodeOfEncode : Prop :=
  ∀ i : Instr, i.wellFormed = true → decode (encode i) = .ok i

/-- R61, R66: a buffer that decodes is the buffer of the command it decodes to, and that command is well formed, so no byte
of a buffer is dropped and no two buffers hold one command. -/
def Obligations.EncodeOfDecode : Prop :=
  ∀ (c : Bytes) (i : Instr), decode c = .ok i → i.wellFormed = true ∧ encode i = c

/-- R74 (its three examples) and R66 (one mode pair in each mode): words written out from the spec decode to their commands. -/
def Obligations.DecodesSpecWords : Prop :=
  decode [0x21, 0xFF, 0xFF, 0xFF, 0xFF, 0xFF, 0xFF] = .ok (.c1LoadKey 0xFF 0xFF 0xFF 0xFF 0xFF 0xFF) ∧
  decode [0x12, 0x01, 0x02, 0x50, 0x00] = .ok (.fcEncStd 0x01 [0x50, 0x00]) ∧
  decode [0x2A, 0x1E, 0xFD, 0x8D, 0x5E] = .ok (.c1Word false 0x1E 0xFD 0x8D 0x5E) ∧
  decode [0x28, 0x5A] = .ok (.c1Byte false 0x5A) ∧
  decode [0x29, 0x5A] = .ok (.c1Byte true 0x5A)

/-- R68: a buffer with an illegal opcode, whatever follows it, ends with ILLEGAL_OPCODE and has no other effect than the epilogue;
and the opcodes R68 lists are all the bytes the opcode map does not have. -/
def Obligations.IllegalOpcodesFail : Prop :=
  (∀ (s : State) (op : Byte) (ops : Bytes) (rest : List Bytes),
    s.pending = (op :: ops) :: rest → illegalOpcode op.toNat →
      step s = .next (endedWith 0x01 { s with pending := rest })) ∧
  (∀ (op : Byte) (ops : Bytes), decode (op :: ops) = .error .illegalOpcode ↔ illegalOpcode op.toNat)

/-! ### One step (30_encoding.md R71 to R73; 60_exceptions.md R201 to R206) -/

/-- R54, R73: the block takes the oldest submitted command, and a buffer that decodes runs as the meaning of its command, once it
is off the list of pending commands. -/
def Obligations.StepRunsDecoded : Prop :=
  ∀ (s : State) (c : Bytes) (rest : List Bytes) (i : Instr),
    s.pending = c :: rest → decode c = .ok i → step s = exec i { s with pending := rest }

/-- The model's choice, log 2 (from R220 and R231): with no command pending the block waits and keeps its state. -/
def Obligations.IdleBlockKeepsState : Prop :=
  ∀ s : State, s.pending = [] → step s = .next s

/-- R72: every command buffer, legal or not, gives exactly one response; it begins with one of the seven status codes, and
carries no payload unless the status is OK (R71). -/
def Obligations.OneResponsePerCommand : Prop :=
  ∀ (s : State) (c : Bytes) (rest : List Bytes), s.pending = c :: rest →
    ∃ (t : State) (st : Status) (payload : Bytes),
      step s = .next t ∧ t.pending = rest ∧ t.responses = s.responses ++ [st.code :: payload] ∧
      (st ≠ .ok → payload = [])

/-- R202 to R205: the status of a buffer that fails a check is the first failing one in the order of R205 (opcode, length,
reserved bits, range, KEYED), as the spec's tables read on the raw bytes; it then changes nothing but through the epilogue. A
buffer that passes them all executes: it ends with OK, or, for FC_DEC_STD and CF_DEC alone, with PARITY or CRC. -/
def Obligations.ChecksInOrder : Prop :=
  ∀ (s : State) (c : Bytes) (rest : List Bytes), s.pending = c :: rest →
    match checkedStatus c s.keyed with
    | some code => step s = .next (commandEndedWith c code { s with pending := rest })
    | none => ∃ (t : State) (code : Byte) (payload : Bytes),
        step s = .next t ∧ t.responses = s.responses ++ [code :: payload] ∧
        (code = 0x00 ∨ isDecoder c = true ∧ (code = 0x05 ∨ code = 0x06))

/-- R206: after any command, legal or not, `LASTST` is its status but for a STATUS command, which leaves it alone, and a failure
ORs its bit into `ERRSTICKY`; a command that ends OK leaves `ERRSTICKY` alone, but for CLEAR_ERR and BLOCK_RESET, whose own effect
clears it. An empty buffer counts as not STATUS. -/
def Obligations.Epilogue : Prop :=
  ∀ (s t : State) (c : Bytes) (rest : List Bytes), s.pending = c :: rest → step s = .next t →
    ∃ (st : Status) (payload : Bytes), t.responses = s.responses ++ [st.code :: payload] ∧
      (c.head? ≠ some 0x01 → t.lastSt = st.code) ∧
      (c.head? = some 0x01 → t.lastSt = s.lastSt) ∧
      (st ≠ .ok → t.errSticky = s.sticky ||| (1#8 <<< (st.code.toNat - 1))) ∧
      (st = .ok → t.errSticky =
        if c.head? = some 0x02 ∨ c.head? = some 0x03 then 0x00 else s.errSticky)

/-- R201, R185: a command that fails returns its status alone and has no other effect on any register than the epilogue, but that a
CF_DEC ending with PARITY or CRC discards the cipher. -/
def Obligations.FailureFrame : Prop :=
  ∀ (s t : State) (c : Bytes) (rest : List Bytes) (st : Status) (payload : Bytes),
    s.pending = c :: rest → step s = .next t → t.responses = s.responses ++ [st.code :: payload] → st ≠ .ok →
      payload = [] ∧ t = commandEndedWith c st.code
        (if (c.head? = some 0x32 ∨ c.head? = some 0x33) ∧ (st = .parity ∨ st = .crc)
          then { s with pending := rest, lfsr := 0, keyed := false, clkcnt := 0 }
          else { s with pending := rest })

/-- R20, R25, R26: which commands may write which register: a command outside the table's column leaves the register as it was,
and no command but CLEAR_ERR and BLOCK_RESET clears a bit of `ERRSTICKY`. -/
def Obligations.RegisterWriters : Prop :=
  ∀ (i : Instr) (s t : State), exec i s = .next t →
    (writesCipher i = false → t.lfsr = s.lfsr ∧ t.clkcnt = s.clkcnt) ∧
    (writesKeyed i = false → t.keyed = s.keyed) ∧
    (i ≠ .fcCrcInit → (∀ b, i ≠ .fcCrcUpdate b) → i ≠ .blockReset → t.crcacc = s.crcacc) ∧
    (i ≠ .clearErr → i ≠ .blockReset → t.sticky &&& s.sticky = s.sticky) ∧
    (i = .status → t.lastSt = s.lastSt) ∧
    t.pending = s.pending

/-- U19 of 93_implementation_defined.md, R26, R200: every step keeps the invariant, from every state that has it, whether a run
reaches it or not. -/
def Obligations.StepKeepsInv : Prop :=
  ∀ s t : State, Inv s → step s = .next t → Inv t

/-- R230: the power-on state has the invariant. -/
def Obligations.ResetHasInv : Prop :=
  Inv State.reset

/-- R51: STATUS changes nothing but its response; C1_READ_STATE, C1_PEEK and FC_CRC_READ change nothing but `LASTST`; each of the
four gives the same payload when it is repeated. -/
def Obligations.ReadsRepeat : Prop :=
  ∀ (i : Instr) (s : State), (i = .status ∨ i = .c1ReadState ∨ i = .fcCrcRead ∨ (i = .c1Peek ∧ s.keyed = true)) →
    ∃ (t u : State) (payload : Bytes), exec i s = .next t ∧ exec i t = .next u ∧
      t = { s with lastSt := t.lastSt, responses := s.responses ++ [0x00 :: payload] } ∧
      u = { t with responses := t.responses ++ [0x00 :: payload] } ∧
      (i = .status → t.lastSt = s.lastSt)

/-! ### Unit 0, block control (40_control.md) -/

/-- R100: NOP changes nothing but `LASTST`. -/
def Obligations.NopResult : Prop :=
  ∀ s : State, exec .nop s = .next (endedOk [] s)

/-- R29, R101: the status record, byte for byte; STATUS leaves every register alone, and when it fails for its length it still leaves
`LASTST` alone but sets `S_LENGTH`. -/
def Obligations.StatusResult : Prop :=
  encode .status = [0x01] ∧
  (∀ s : State, exec .status s = .next { s with responses := s.responses ++ [[0x00,
    (if s.keyed then 0x01 else 0x00), s.sticky, s.lastSt,
    s.clkcnt.extractLsb' 0 8, s.clkcnt.extractLsb' 8 8, s.clkcnt.extractLsb' 16 8, s.clkcnt.extractLsb' 24 8]] }) ∧
  (∀ (s : State) (x : Byte) (xs : Bytes) (rest : List Bytes), s.pending = (0x01 :: x :: xs) :: rest →
    step s = .next { s with
      pending := rest, errSticky := s.sticky ||| 0x04, responses := s.responses ++ [[0x03]] })

/-- R102: CLEAR_ERR clears `ERRSTICKY`; when it fails for its length it does not, but sets `S_LENGTH`. -/
def Obligations.ClearErrResult : Prop :=
  encode .clearErr = [0x02] ∧
  (∀ s : State, exec .clearErr s = .next (endedOk [] { s with errSticky := 0x00 })) ∧
  (∀ (s : State) (x : Byte) (xs : Bytes) (rest : List Bytes), s.pending = (0x02 :: x :: xs) :: rest →
    step s = .next { s with
      pending := rest, lastSt := 0x03, errSticky := s.sticky ||| 0x04, responses := s.responses ++ [[0x03]] })

/-- R230: the values after power-on, and BLOCK_RESET puts the block into exactly this state at any time. -/
def Obligations.PowerOnAndBlockReset : Prop :=
  (State.reset.lfsr = 0x000000000000 ∧ State.reset.keyed = false ∧ State.reset.clkcnt = 0x00000000 ∧
    State.reset.crcacc = 0x6363 ∧ State.reset.errSticky = 0x00 ∧ State.reset.lastSt = 0x00) ∧
  ∀ s : State, exec .blockReset s =
    .next { State.reset with pending := s.pending, responses := s.responses ++ [[0x00]] }

/-! ### Unit 1, the frame codec (41_frame_codec.md) -/

/-- R110, R111: FC_PARITY returns 1 when the byte has an even number of 1 bits and 0 when it has an odd number. -/
def Obligations.FcParityResult : Prop :=
  ∀ (b : Byte) (s : State),
    encode (.fcParity b) = [0x10, b] ∧
    exec (.fcParity b) s =
      .next (endedOk [if ((List.range 8).countP fun i => b.getLsbD i) % 2 = 0 then 0x01 else 0x00] s)

/-- R112: FC_ENC_SHORT fails with RESERVED when `IMM[7]` is 1; otherwise it returns the stream of the value's 7 bits, followed, when
the instance's `SHORT_FRAME_PARITY` is 1, by the bit that makes the number of 1 bits odd. It holds for either value of the
parameter. -/
def Obligations.FcEncShortResult : Prop :=
  ∀ (imm : Byte) (s : State),
    encode (.fcEncShort imm) = [0x11, imm] ∧
    exec (.fcEncShort imm) s =
      if imm.getLsbD 7 then .next (endedWith 0x02 s)
      else if Config.shortFrameParity then
        .next (endedOk [0x08, 0x00,
          if ((List.range 7).countP fun i => imm.getLsbD i) % 2 = 0 then imm ||| 0x80 else imm] s)
      else .next (endedOk [0x07, 0x00, imm] s)

/-- R113: the bits of a standard frame: 9 for each byte; byte j's data bits are stream positions 9j to 9j+7 and its parity bit is
position 9j+8. -/
def Obligations.StdBitsLayout : Prop :=
  ∀ d : Bytes, (stdBits d).length = 9 * d.length ∧
    ∀ (j : Nat) (b : Byte), d[j]? = some b →
      (∀ i, i < 8 → (stdBits d)[9 * j + i]? = some (b.getLsbD i)) ∧ (stdBits d)[9 * j + 8]? = some (oddpar b)

/-- R44: a returned stream is the bit count as a little-endian u16, then `ceil(N/8)` data bytes in which bit `k mod 8` of byte
`k div 8` is the stream's bit k and every later bit is 0; a submitted stream is read the same way, and its padding bits take part
in nothing: data bytes that agree on the first N bits are read alike. -/
def Obligations.StreamPacking : Prop :=
  (∀ s : Bits, s.length < 65536 →
    ∃ (lo hi : Byte) (data : Bytes), stream s = lo :: hi :: data ∧ lo.toNat + 256 * hi.toNat = s.length ∧
      data.length = (s.length + 7) / 8 ∧
      ∀ k, k < 8 * data.length → (data.getD (k / 8) 0).getLsbD (k % 8) = s.getD k false) ∧
  (∀ (n : Nat) (data : Bytes), (unpackBits n data).length = n ∧
    ∀ k, k < n → (unpackBits n data)[k]? = some ((data.getD (k / 8) 0).getLsbD (k % 8))) ∧
  (∀ (n : Nat) (data other : Bytes),
    (∀ k, k < n → (data.getD (k / 8) 0).getLsbD (k % 8) = (other.getD (k / 8) 0).getLsbD (k % 8)) →
      unpackBits n data = unpackBits n other) ∧
  stream (stdBits [0x26]) = [0x09, 0x00, 0x26, 0x00]

/-- R114: FC_ENC_STD, with its statuses in order; on success the stream of the standard frame of the data, followed by its CRC_A
low byte first when C = 1. It writes no register. -/
def Obligations.FcEncStdResult : Prop :=
  ∀ (ctl : Byte) (d : Bytes) (s : State),
    encode (.fcEncStd ctl d) = [0x12, ctl, BitVec.ofNat 8 d.length] ++ d ∧
    exec (.fcEncStd ctl d) s =
      if ctl &&& 0xFE ≠ 0 then .next (endedWith 0x02 s)
      else if d.length = 0 ∨ d.length + (if ctl.getLsbD 0 then 2 else 0) > 32 then .next (endedWith 0x03 s)
      else .next (endedOk (stream (stdBits (if ctl.getLsbD 0
        then d ++ [(crcA d).extractLsb' 0 8, (crcA d).extractLsb' 8 8] else d))) s)

/-- R115: FC_DEC_STD, with its statuses in order: RESERVED, LENGTH, PARITY when any byte's parity bit is wrong, CRC when C = 1 and the
frame does not end in its CRC_A; on success the bytes, without the CRC bytes when C = 1. It writes no register. -/
def Obligations.FcDecStdResult : Prop :=
  ∀ (ctl : Byte) (nb : BitVec 16) (bits : Bytes) (s : State),
    let n := nb.toNat / 9
    let bit := fun k => (unpackBits nb.toNat bits).getD k false
    let d := (List.range n).map fun j => byteOfBits ((List.range 8).map fun i => bit (9 * j + i))
    encode (.fcDecStd ctl nb bits) = [0x13, ctl, nb.extractLsb' 0 8, nb.extractLsb' 8 8] ++ bits ∧
    exec (.fcDecStd ctl nb bits) s =
      if ctl &&& 0xFE ≠ 0 then .next (endedWith 0x02 s)
      else if nb.toNat % 9 ≠ 0 ∨ n < 1 ∨ n > 32 ∨ (ctl.getLsbD 0 = true ∧ n < 3) then .next (endedWith 0x03 s)
      else if ∃ j, j < n ∧ bit (9 * j + 8) ≠ oddpar (d.getD j 0) then .next (endedWith 0x05 s)
      else if ctl.getLsbD 0 then
        if crcA (d.take (n - 2)) = u16OfBytes (d.getD (n - 2) 0) (d.getD (n - 1) 0)
        then .next (endedOk (d.take (n - 2)) s) else .next (endedWith 0x06 s)
      else .next (endedOk d s)

/-- R126: for every byte, FC_DEC_STD undoes FC_ENC_STD without CRC, and reports PARITY when the parity bit of the stream is flipped; for
every string of 1 to 30 bytes, FC_DEC_STD with CRC undoes FC_ENC_STD with CRC. -/
def Obligations.StdFrameRoundTrip : Prop :=
  (∀ (b : Byte) (s u : State), ∃ x y : Byte,
    exec (.fcEncStd 0x00 [b]) s = .next (endedOk [0x09, 0x00, x, y] s) ∧
    exec (.fcDecStd 0x00 9 [x, y]) u = .next (endedOk [b] u) ∧
    exec (.fcDecStd 0x00 9 [x, y ^^^ 0x01]) u = .next (endedWith 0x05 u)) ∧
  (∀ (d : Bytes) (s u : State), 1 ≤ d.length → d.length ≤ 30 →
    ∃ (lo hi : Byte) (data : Bytes),
      exec (.fcEncStd 0x01 d) s = .next (endedOk (lo :: hi :: data) s) ∧
      exec (.fcDecStd 0x01 (u16OfBytes lo hi) data) u = .next (endedOk d u))

/-- R117: FC_ENC_4BIT fails with RESERVED when `IMM[7:4]` is not 0; otherwise it returns the 4-bit stream of the value. -/
def Obligations.FcEnc4BitResult : Prop :=
  ∀ (imm : Byte) (s : State),
    encode (.fcEnc4Bit imm) = [0x14, imm] ∧
    exec (.fcEnc4Bit imm) s =
      if imm &&& 0xF0 ≠ 0 then .next (endedWith 0x02 s) else .next (endedOk [0x04, 0x00, imm] s)

/-- R118: FC_DEC_4BIT fails with RESERVED when any bit of `CTL` is 1 and with LENGTH when `NB` is not 4; otherwise it returns the low
four bits of the stream byte and ignores the high four. -/
def Obligations.FcDec4BitResult : Prop :=
  ∀ (ctl : Byte) (nb : BitVec 16) (x : Byte) (bits : Bytes) (s : State),
    encode (.fcDec4Bit ctl nb bits) = [0x15, ctl, nb.extractLsb' 0 8, nb.extractLsb' 8 8] ++ bits ∧
    (ctl ≠ 0 → exec (.fcDec4Bit ctl nb bits) s = .next (endedWith 0x02 s)) ∧
    (ctl = 0 → nb ≠ 4 → exec (.fcDec4Bit ctl nb bits) s = .next (endedWith 0x03 s)) ∧
    (exec (.fcDec4Bit 0 4 [x]) s = .next (endedOk [x &&& 0x0F] s))

/-- R121: FC_CRC fails with LENGTH above 32 bytes; otherwise it returns the CRC_A of the data, low byte first. Of no data, that
is `63 63`. -/
def Obligations.FcCrcResult : Prop :=
  (∀ d : Bytes, encode (.fcCrc d) = [0x16, BitVec.ofNat 8 d.length] ++ d) ∧
  (∀ (d : Bytes) (s : State), exec (.fcCrc d) s =
    if d.length > 32 then .next (endedWith 0x03 s)
    else .next (endedOk [(crcA d).extractLsb' 0 8, (crcA d).extractLsb' 8 8] s)) ∧
  (∀ s : State, exec (.fcCrc []) s = .next (endedOk [0x63, 0x63] s))

/-- R122, R123: FC_CRC_CHECK fails with LENGTH outside 2 to 32 bytes; otherwise it returns 1 when the last two bytes are, low byte
first, the CRC_A of those before them, and 0 when they are not. -/
def Obligations.FcCrcCheckResult : Prop :=
  ∀ (d : Bytes) (lo hi : Byte) (s : State),
    encode (.fcCrcCheck d) = [0x17, BitVec.ofNat 8 d.length] ++ d ∧
    (d.length > 30 → exec (.fcCrcCheck (d ++ [lo, hi])) s = .next (endedWith 0x03 s)) ∧
    (d.length ≤ 30 → exec (.fcCrcCheck (d ++ [lo, hi])) s =
      .next (endedOk [if (crcA d).toNat = lo.toNat + 256 * hi.toNat then 0x01 else 0x00] s)) ∧
    exec (.fcCrcCheck [lo]) s = .next (endedWith 0x03 s) ∧ exec (.fcCrcCheck []) s = .next (endedWith 0x03 s)

/-- R120: the CRC_A of no bytes is 0x6363; the CRC_A of one byte more is eight shifts of the accumulator XOR the byte, bit 0 out
and 0x8408 in when that bit was 1; there is no final XOR. -/
def Obligations.CrcAStep : Prop :=
  crcA [] = 0x6363 ∧
  ∀ (d : Bytes) (b : Byte), ∃ c : Nat → BitVec 16,
    c 0 = crcA d ^^^ b.setWidth 16 ∧
    (∀ k, c (k + 1) = if (c k).getLsbD 0 then (c k >>> 1) ^^^ 0x8408 else c k >>> 1) ∧
    crcA (d ++ [b]) = c 8

/-- R124 (a): a string of at least two bytes ends in its CRC_A exactly when the CRC_A of the whole string is 0. -/
def Obligations.CrcResidue : Prop :=
  ∀ d : Bytes, 2 ≤ d.length → (crcOk d = true ↔ crcA d = 0x0000)

/-- R124 (b): flipping any one bit of a string that ends in its CRC_A makes the check fail, the CRC bytes included. -/
def Obligations.CrcDetectsSingleBit : Prop :=
  ∀ (d : Bytes) (j k : Nat) (b : Byte), 2 ≤ d.length → crcOk d = true → d[j]? = some b → k < 8 →
    crcOk (d.set j (b ^^^ (1#8 <<< k))) = false

/-- R127 to R129: the incremental CRC commands: INIT writes 0x6363, UPDATE folds one byte in, READ returns the accumulator low byte
first; none writes another register. -/
def Obligations.IncrementalCrcResults : Prop :=
  (encode .fcCrcInit = [0x18] ∧ encode .fcCrcRead = [0x1A] ∧ ∀ b, encode (.fcCrcUpdate b) = [0x19, b]) ∧
  ∀ (s : State) (b : Byte),
    exec .fcCrcInit s = .next (endedOk [] { s with crcacc := 0x6363 }) ∧
    exec (.fcCrcUpdate b) s = .next (endedOk [] { s with crcacc := crcStep s.crcacc b }) ∧
    exec .fcCrcRead s = .next (endedOk [s.crcacc.extractLsb' 0 8, s.crcacc.extractLsb' 8 8] s)

/-- R25, R127 to R129: FC_CRC_INIT, then FC_CRC_UPDATE on each byte of a string, then FC_CRC_READ: every command answers OK and the
last response is what FC_CRC returns for the string, whatever the accumulator held before. -/
def Obligations.IncrementalCrcAgrees : Prop :=
  ∀ (d : Bytes) (s : State), ∃ t : State,
    execAll (.fcCrcInit :: (d.map .fcCrcUpdate ++ [.fcCrcRead])) s = some t ∧
    t.responses = s.responses ++ List.replicate (d.length + 1) [0x00] ++
      [[0x00, (crcA d).extractLsb' 0 8, (crcA d).extractLsb' 8 8]]

/-! ### Unit 2, the CRYPTO1 engine (42_crypto1.md) -/

/-- R142: the feedback is the parity of the register under the mask 0x0E882B0AD621, which has exactly the 18 tap bits. -/
def Obligations.FeedbackIsMaskParity : Prop :=
  (∀ x : BitVec 48, feedback x =
    decide (((List.range 48).countP fun i => (x &&& 0x0E882B0AD621).getLsbD i) % 2 = 1)) ∧
  ∀ i, i < 48 → ((0x0E882B0AD621 : BitVec 48).getLsbD i = true ↔
    i ∈ [0, 5, 9, 10, 12, 14, 15, 17, 19, 24, 25, 27, 29, 35, 39, 41, 42, 43])

/-- R143: the three filter functions are their truth tables, with the index order the rule gives each. -/
def Obligations.FilterTruthTables : Prop :=
  ∀ y0 y1 y2 y3 y4 : Bool,
    filterA y0 y1 y2 y3 =
      (0xD938 : BitVec 16).getLsbD (8 * y0.toNat + 4 * y1.toNat + 2 * y2.toNat + y3.toNat) ∧
    filterB y0 y1 y2 y3 =
      (0xF22C : BitVec 16).getLsbD (8 * y0.toNat + 4 * y1.toNat + 2 * y2.toNat + y3.toNat) ∧
    filterC y0 y1 y2 y3 y4 =
      (0xEC57E80A : BitVec 32).getLsbD (y0.toNat + 2 * y1.toNat + 4 * y2.toNat + 8 * y3.toNat + 16 * y4.toNat)

/-- R144: the filter output in its five groups, and it reads exactly the cells of the mask 0xAAAAAAAAAA00: a cell outside it never
changes the output, and each cell in it does for some register. -/
def Obligations.FilterReadsOddCells : Prop :=
  (∀ x : BitVec 48, filter x = filterC
    (filterA (x.getLsbD 9) (x.getLsbD 11) (x.getLsbD 13) (x.getLsbD 15))
    (filterB (x.getLsbD 17) (x.getLsbD 19) (x.getLsbD 21) (x.getLsbD 23))
    (filterB (x.getLsbD 25) (x.getLsbD 27) (x.getLsbD 29) (x.getLsbD 31))
    (filterA (x.getLsbD 33) (x.getLsbD 35) (x.getLsbD 37) (x.getLsbD 39))
    (filterB (x.getLsbD 41) (x.getLsbD 43) (x.getLsbD 45) (x.getLsbD 47))) ∧
  ∀ i, i < 48 → ((∃ x : BitVec 48, filter (x ^^^ (1#48 <<< i)) ≠ filter x) ↔
    (0xAAAAAAAAAA00 : BitVec 48).getLsbD i = true)

/-- R141, R145, R146: the clock step returns the filter output of the state before the shift; cell i takes cell i+1, cell 47 takes
the feedback XOR the input XOR, in encrypted-input mode, the keystream bit; `CLKCNT` grows by one modulo 2^32; nothing else
changes. -/
def Obligations.ClockStep : Prop :=
  ∀ (inp e : Bool) (s : State), ∃ y : BitVec 48,
    clock inp e s = (filter s.lfsr, { s with lfsr := y, clkcnt := BitVec.ofNat 32 (s.clkcnt.toNat + 1) }) ∧
    (∀ i, i < 47 → y.getLsbD i = s.lfsr.getLsbD (i + 1)) ∧
    y.getLsbD 47 = (feedback s.lfsr ^^ (inp ^^ (e && filter s.lfsr)))

/-- R147: (a) the keystream bit and the next register depend on the register, the input and the flag alone; (b) the zero register is
a fixed point for input 0, with keystream bit 0; (c) the state before a step can be recovered: two states with the same state after
the same step are the same. -/
def Obligations.ClockProperties : Prop :=
  ∀ (inp e : Bool) (s u : State),
    (s.lfsr = u.lfsr → (clock inp e s).1 = (clock inp e u).1 ∧ (clock inp e s).2.lfsr = (clock inp e u).2.lfsr) ∧
    (s.lfsr = 0 → (clock false e s).1 = false ∧ (clock false e s).2.lfsr = 0) ∧
    ((clock inp e s).2 = (clock inp e u).2 → s = u)

/-- R150: C1_LOAD_KEY puts bit b of key byte a in cell 8a+b, sets `KEYED`, clears `CLKCNT` and writes no other register, whatever
the state before; C1_READ_STATE then returns the key; the all-zero key gives keystream 0 for as long as only 0 bits are
fed. -/
def Obligations.LoadKeyResult : Prop :=
  (∀ k0 k1 k2 k3 k4 k5 : Byte, encode (.c1LoadKey k0 k1 k2 k3 k4 k5) = [0x21, k0, k1, k2, k3, k4, k5]) ∧
  (∀ (k0 k1 k2 k3 k4 k5 : Byte) (s : State), ∃ y : BitVec 48,
    exec (.c1LoadKey k0 k1 k2 k3 k4 k5) s =
      .next (endedOk [] { s with lfsr := y, keyed := true, clkcnt := 0 }) ∧
    (∀ a b, a < 6 → b < 8 → y.getLsbD (8 * a + b) = ([k0, k1, k2, k3, k4, k5].getD a 0).getLsbD b) ∧
    ∀ u : State, u.lfsr = y → exec .c1ReadState u = .next (endedOk [k0, k1, k2, k3, k4, k5] u)) ∧
  keyRegister 0 0 0 0 0 0 = 0 ∧
  (∀ (n : Nat) (e : Bool) (s : State), s.lfsr = 0 →
    (clockBits e (List.replicate n false) s).1 = List.replicate n false ∧
    (clockBits e (List.replicate n false) s).2.lfsr = 0)

/-- R151: C1_DISCARD clears the cipher state whatever it was (a second one changes nothing further); a C1_BYTE in a state without a
key fails with NOT_KEYED, as the rule's example has it. -/
def Obligations.DiscardResult : Prop :=
  encode .c1Discard = [0x20] ∧
  ∀ s : State,
    exec .c1Discard s = .next (endedOk [] { s with lfsr := 0, keyed := false, clkcnt := 0 }) ∧
    ∀ (m : Bool) (b : Byte), s.keyed = false → exec (.c1Byte m b) s = .next (endedWith 0x04 s)

/-- R152: with a key loaded, C1_PEEK returns the keystream bit that the next clock step returns, whatever its input and mode, and
changes nothing but `LASTST`; without one it fails with NOT_KEYED. -/
def Obligations.PeekResult : Prop :=
  encode .c1Peek = [0x22] ∧
  ∀ s : State,
    (s.keyed = false → exec .c1Peek s = .next (endedWith 0x04 s)) ∧
    (s.keyed = true → ∃ ks : Bool,
      exec .c1Peek s = .next (endedOk [if ks then 0x01 else 0x00] s) ∧ ks = filter s.lfsr ∧
      ∀ inp e, (clock inp e s).1 = ks)

/-- R153: C1_READ_STATE returns the register's six bytes, byte a holding cells 8a to 8a+7, whether or not a key is loaded. -/
def Obligations.ReadStateResult : Prop :=
  encode .c1ReadState = [0x23] ∧
  ∀ s : State, ∃ p : Bytes,
    exec .c1ReadState s = .next (endedOk p s) ∧ p.length = 6 ∧
    ∀ a b, a < 6 → b < 8 → (p.getD a 0).getLsbD b = s.lfsr.getLsbD (8 * a + b)

/-- R154: C1_BIT: RESERVED before NOT_KEYED, then one clock step on `IMM[0]` in the mode's flag E, returning the keystream bit; when
that bit is 0, the two modes leave the same state. -/
def Obligations.BitResult : Prop :=
  ∀ (m : Bool) (imm : Byte) (s : State),
    encode (.c1Bit m imm) = [if m then 0x25 else 0x24, imm] ∧
    exec (.c1Bit m imm) s =
      (if imm &&& 0xFE ≠ 0 then .next (endedWith 0x02 s)
       else if s.keyed = false then .next (endedWith 0x04 s)
       else .next (endedOk [if filter s.lfsr then 0x01 else 0x00] (clock (imm.getLsbD 0) m s).2)) ∧
    (filter s.lfsr = false → exec (.c1Bit true imm) s = exec (.c1Bit false imm) s)

/-- R155, R164: with a key loaded and no reserved bit set, C1_NIBBLE is C1_BIT on its four bits, bit 0 first: the same state, and the
keystream bits assembled bit 0 first; four clock steps. -/
def Obligations.NibbleIsFourBits : Prop :=
  ∀ (m : Bool) (v : Byte) (s : State), s.keyed = true → v &&& 0xF0 = 0 →
    ∃ (t u : State) (k : Nat → Bool),
      exec (.c1Nibble m v) s = .next t ∧ t.clkcnt = s.clkcnt + 4 ∧
      t.responses = s.responses ++ [[0x00, byteOfBits [k 0, k 1, k 2, k 3]]] ∧
      execAll ((List.range 4).map fun i => .c1Bit m (bitByte (v.getLsbD i))) s = some u ∧
      u.responses = s.responses ++ (List.range 4).map (fun i => [0x00, bitByte (k i)]) ∧
      t = { u with responses := t.responses }

/-- R156, R164: with a key loaded, C1_BYTE is C1_BIT on its eight bits, bit 0 first: the same state, and the keystream bits
assembled bit 0 first; eight clock steps. -/
def Obligations.ByteIsEightBits : Prop :=
  ∀ (m : Bool) (v : Byte) (s : State), s.keyed = true →
    ∃ (t u : State) (k : Byte),
      exec (.c1Byte m v) s = .next t ∧ t.clkcnt = s.clkcnt + 8 ∧
      t.responses = s.responses ++ [[0x00, k]] ∧
      execAll ((List.range 8).map fun i => .c1Bit m (bitByte (v.getLsbD i))) s = some u ∧
      u.responses = s.responses ++ (List.range 8).map (fun i => [0x00, bitByte (k.getLsbD i)]) ∧
      t = { u with responses := t.responses }

/-- R157, R164: with a key loaded, C1_WORD is C1_BYTE on its four bytes in order: the same state and the same keystream bytes; 32 clock
steps. -/
def Obligations.WordIsFourBytes : Prop :=
  ∀ (m : Bool) (w0 w1 w2 w3 : Byte) (s : State), s.keyed = true →
    ∃ (t u : State) (r0 r1 r2 r3 : Byte),
      exec (.c1Word m w0 w1 w2 w3) s = .next t ∧ t.clkcnt = s.clkcnt + 32 ∧
      t.responses = s.responses ++ [[0x00, r0, r1, r2, r3]] ∧
      execAll [.c1Byte m w0, .c1Byte m w1, .c1Byte m w2, .c1Byte m w3] s = some u ∧
      u.responses = s.responses ++ [[0x00, r0], [0x00, r1], [0x00, r2], [0x00, r3]] ∧
      t = { u with responses := t.responses }

/-- R158, R159, R164: with a key loaded, C1_ENC_BYTE.1 on p and C1_DEC_BYTE.1 on c have the register effect and the keystream of
C1_BYTE.0 on p and C1_BYTE.1 on c, and the mode 0 forms those of C1_BYTE.0 on 0; each returns the operand XOR the keystream, then
the keystream. -/
def Obligations.EncDecByteAreByteClocks : Prop :=
  ∀ (m : Bool) (x : Byte) (s : State), s.keyed = true →
    (∃ (t : State) (ks : Byte),
      exec (.c1Byte false (if m then x else 0x00)) s = .next (endedOk [ks] t) ∧
      exec (.c1EncByte m x) s = .next (endedOk [x ^^^ ks, ks] t)) ∧
    (∃ (t : State) (ks : Byte),
      exec (.c1Byte m (if m then x else 0x00)) s = .next (endedOk [ks] t) ∧
      exec (.c1DecByte m x) s = .next (endedOk [x ^^^ ks, ks] t))

/-- R148, R159: a receiver that holds the sender's register reads the sender's byte: C1_DEC_BYTE on the ciphertext of C1_ENC_BYTE in the
same mode returns the plaintext and the same keystream, and the two registers stay equal. -/
def Obligations.DecByteUndoesEncByte : Prop :=
  ∀ (m : Bool) (p : Byte) (s u : State), s.keyed = true → u.keyed = true → s.lfsr = u.lfsr →
    ∃ (t v : State) (c ks : Byte),
      exec (.c1EncByte m p) s = .next t ∧ t.responses = s.responses ++ [[0x00, c, ks]] ∧
      exec (.c1DecByte m c) u = .next v ∧ v.responses = u.responses ++ [[0x00, p, ks]] ∧
      v.lfsr = t.lfsr

/-! ### Unit 3, encrypted framing (43_crypto_frames.md) -/

/-- R181, R182: with no reserved bit set, the length in range and a key loaded, CF_ENC returns the stream of an encrypted frame of 9 bits
for each byte of the data and its CRC, in 8 clock steps for each byte, and writes no register but `LFSR` and `CLKCNT`. -/
def Obligations.CfEncResult : Prop :=
  ∀ (m : Bool) (ctl : Byte) (d : Bytes) (s : State),
    ctl &&& 0xFE = 0 → 1 ≤ d.length → d.length + (if ctl.getLsbD 0 then 2 else 0) ≤ 32 → s.keyed = true →
      ∃ (y : BitVec 48) (bits : Bits),
        exec (.cfEnc m ctl d) s = .next (endedOk (stream bits) { s with
          lfsr := y
          clkcnt := s.clkcnt + BitVec.ofNat 32 (8 * (d.length + (if ctl.getLsbD 0 then 2 else 0))) }) ∧
        bits.length = 9 * (d.length + (if ctl.getLsbD 0 then 2 else 0))

/-- R181, R188: with a key loaded, CF_ENC without CRC is, for each byte, C1_ENC_BYTE in the same mode and then C1_PEEK: the frame's bits are the
ciphertext byte's bits and the plaintext's odd parity XOR the peeked bit, and the state left is the same. -/
def Obligations.CfEncFromPrimitives : Prop :=
  ∀ (m : Bool) (d : Bytes) (s : State), 1 ≤ d.length → d.length ≤ 32 → s.keyed = true →
    ∃ (t u : State) (out : List (Byte × Byte × Bool)), out.length = d.length ∧
      exec (.cfEnc m 0x00 d) s = .next t ∧
      t.responses = s.responses ++ [0x00 :: stream ((d.zip out).flatMap fun q =>
        (List.range 8).map (fun i => q.2.1.getLsbD i) ++ [oddpar q.1 ^^ q.2.2.2])] ∧
      execAll (d.flatMap fun b => [.c1EncByte m b, .c1Peek]) s = some u ∧
      u.responses = s.responses ++ out.flatMap (fun r => [[0x00, r.1, r.2.1], [0x00, bitByte r.2.2]]) ∧
      t = { u with responses := t.responses }

/-- R180: the CRC_A of an encrypted frame is computed over the plaintext and encrypted with it: CF_ENC with C = 1 is CF_ENC with C = 0 on the
data followed by its CRC_A, low byte first. -/
def Obligations.CfEncCrcOverPlaintext : Prop :=
  ∀ (m : Bool) (d : Bytes) (s : State), 1 ≤ d.length → d.length ≤ 30 →
    exec (.cfEnc m 0x01 d) s =
      exec (.cfEnc m 0x00 (d ++ [(crcA d).extractLsb' 0 8, (crcA d).extractLsb' 8 8])) s

/-- R183, in the range R182 gives a frame: for strings of at least one byte each, together at most 32, CF_ENC of a ++ b returns the
concatenation of the streams of CF_ENC of a and then of b, and leaves the same state. (Outside it one of the three commands fails
with LENGTH, R182.) -/
def Obligations.SplittingLaw : Prop :=
  ∀ (m : Bool) (a b : Bytes) (s : State), s.keyed = true → 1 ≤ a.length → 1 ≤ b.length → a.length + b.length ≤ 32 →
    ∃ (t u : State) (x y : Bits), x.length = 9 * a.length ∧ y.length = 9 * b.length ∧
      exec (.cfEnc m 0x00 (a ++ b)) s = .next t ∧
      t.responses = s.responses ++ [0x00 :: stream (x ++ y)] ∧
      execAll [.cfEnc m 0x00 a, .cfEnc m 0x00 b] s = some u ∧
      u.responses = s.responses ++ [0x00 :: stream x, 0x00 :: stream y] ∧
      t = { u with responses := t.responses }

/-- R186: two block instances with equal registers and keys loaded: CF_DEC on the stream that CF_ENC returned, in the same mode and with
the same CRC flag, returns OK with the data, and both end with equal registers. -/
def Obligations.EncryptedRoundTrip : Prop :=
  ∀ (m c : Bool) (d : Bytes) (s u : State), s.keyed = true → u.keyed = true → s.lfsr = u.lfsr →
    1 ≤ d.length → d.length + (if c then 2 else 0) ≤ 32 →
      ∃ (t v : State) (lo hi : Byte) (data : Bytes),
        exec (.cfEnc m (if c then 0x01 else 0x00) d) s = .next t ∧
        t.responses = s.responses ++ [0x00 :: lo :: hi :: data] ∧
        exec (.cfDec m (if c then 0x01 else 0x00) (u16OfBytes lo hi) data) u = .next v ∧
        v.responses = u.responses ++ [0x00 :: d] ∧
        v.lfsr = t.lfsr ∧ v.keyed = true

/-- R184, R185: with no reserved bit set, `NB` in range and a key loaded, CF_DEC is, for each byte, C1_DEC_BYTE in the same mode on the
frame's eight data bits and then C1_PEEK for the parity bit. It ends with PARITY when any byte's decrypted parity bit is wrong,
else with CRC when C = 1 and the plaintext does not end in its CRC_A, both discarding the cipher; else it returns the plaintext,
without the CRC bytes when C = 1, and leaves the register those commands leave, 8 clock steps for each byte later. -/
def Obligations.CfDecResult : Prop :=
  ∀ (m : Bool) (ctl : Byte) (nb : BitVec 16) (bits : Bytes) (s : State),
    let n := nb.toNat / 9
    let bit := fun k => (unpackBits nb.toNat bits).getD k false
    ctl &&& 0xFE = 0 → nb.toNat % 9 = 0 → 1 ≤ n → n ≤ 32 → (ctl.getLsbD 0 = true → 3 ≤ n) → s.keyed = true →
      ∃ (u : State) (out : List (Byte × Byte × Bool)), out.length = n ∧
        execAll ((List.range n).flatMap fun j =>
          [.c1DecByte m (byteOfBits ((List.range 8).map fun i => bit (9 * j + i))), .c1Peek]) s = some u ∧
        u.responses = s.responses ++ out.flatMap (fun r => [[0x00, r.1, r.2.1], [0x00, bitByte r.2.2]]) ∧
        let d := out.map fun r => r.1
        let parity := fun j => bit (9 * j + 8) ^^ (out.getD j (0, 0, false)).2.2
        exec (.cfDec m ctl nb bits) s =
          if ∃ j, j < n ∧ parity j ≠ oddpar (d.getD j 0)
          then .next (endedWith 0x05 { s with lfsr := 0, keyed := false, clkcnt := 0 })
          else if ctl.getLsbD 0 = true ∧ crcA (d.take (n - 2)) ≠ u16OfBytes (d.getD (n - 2) 0) (d.getD (n - 1) 0)
          then .next (endedWith 0x06 { s with lfsr := 0, keyed := false, clkcnt := 0 })
          else .next (endedOk (if ctl.getLsbD 0 then d.take (n - 2) else d)
            { s with lfsr := u.lfsr, clkcnt := s.clkcnt + BitVec.ofNat 32 (8 * n) })

/-! ### Unit 4, the nonce helper (44_nonce_helper.md) -/

/-- R191: NH_SUC returns `suc` of the nonce and writes no register but through the epilogue; with CNT = 0 it returns the nonce, and on the
zero nonce it returns zeros for every CNT. -/
def Obligations.NhSucResult : Prop :=
  (∀ (cnt x0 x1 x2 x3 : Byte), encode (.nhSuc cnt x0 x1 x2 x3) = [0x40, cnt, x0, x1, x2, x3]) ∧
  (∀ (cnt x0 x1 x2 x3 : Byte) (s : State),
    exec (.nhSuc cnt x0 x1 x2 x3) s = .next (endedOk (suc x0 x1 x2 x3 cnt.toNat) s)) ∧
  (∀ (x0 x1 x2 x3 : Byte) (s : State), exec (.nhSuc 0 x0 x1 x2 x3) s = .next (endedOk [x0, x1, x2, x3] s)) ∧
  (∀ (cnt : Byte) (s : State), exec (.nhSuc cnt 0 0 0 0) s = .next (endedOk [0, 0, 0, 0] s))

/-- R190: the nonce's bits, byte 0 first and bit 0 first, begin a bit sequence in which every bit from the 32nd on is the XOR of the
bits 16, 14, 13 and 11 places before it; `suc(X, n)` is the 32 bits of that sequence from position n. -/
def Obligations.SucIsBitSequence : Prop :=
  ∀ x0 x1 x2 x3 : Byte, ∃ q : Nat → Bool,
    (∀ j i, j < 4 → i < 8 → q (8 * j + i) = ([x0, x1, x2, x3].getD j 0).getLsbD i) ∧
    (∀ k, q (k + 32) = (q (k + 16) ^^ q (k + 18) ^^ q (k + 19) ^^ q (k + 21))) ∧
    ∀ n, (suc x0 x1 x2 x3 n).length = 4 ∧
      ∀ j i, j < 4 → i < 8 → ((suc x0 x1 x2 x3 n).getD j 0).getLsbD i = q (n + (8 * j + i))

/-- R192: (a) no step leaves the nonce; (b) steps add up; (c) eight steps shift the nonce one byte toward X0 and bring one new byte in;
(d) the zero nonce stays; and from 16 steps on, the result depends on the nonce's last two bytes alone. -/
def Obligations.SucProperties : Prop :=
  (∀ x0 x1 x2 x3 : Byte, suc x0 x1 x2 x3 0 = [x0, x1, x2, x3]) ∧
  (∀ (x0 x1 x2 x3 : Byte) (a b : Nat), ∃ y0 y1 y2 y3 : Byte,
    suc x0 x1 x2 x3 a = [y0, y1, y2, y3] ∧ suc y0 y1 y2 y3 b = suc x0 x1 x2 x3 (a + b)) ∧
  (∀ x0 x1 x2 x3 : Byte, ∃ z, suc x0 x1 x2 x3 8 = [x1, x2, x3, z]) ∧
  (∀ n : Nat, suc 0 0 0 0 n = [0, 0, 0, 0]) ∧
  (∀ (x0 x1 y0 y1 x2 x3 : Byte) (n : Nat), 16 ≤ n → suc x0 x1 x2 x3 n = suc y0 y1 x2 x3 n)
end

