-- ==== Sys2Proof/Laws/Bits.lean ====
section
/-! SUPPORT. Bits, bytes and streams: lengths, elements, and that packing and unpacking undo each other. -/

namespace Sys2Proof.Machine

@[simp] theorem bitsOf_length {w : Nat} (n : Nat) (v : BitVec w) : (bitsOf n v).length = n := by
  simp [bitsOf]

theorem bitsOf_getElem? {w : Nat} (n : Nat) (v : BitVec w) (i : Nat) (h : i < n) :
    (bitsOf n v)[i]? = some (v.getLsbD i) := by
  simp [bitsOf, h]

/-- Element `i` of a bit sequence is bit `i` of its number. -/
theorem bitsToNat_testBit (bs : Bits) (i : Nat) : (bitsToNat bs).testBit i = bs.getD i false := by
  induction bs generalizing i with
  | nil => simp [bitsToNat]
  | cons b bs ih =>
    cases i with
    | zero => cases b <;> simp [bitsToNat, Nat.add_mod]
    | succ i =>
      have : (b.toNat + 2 * bitsToNat bs) / 2 = bitsToNat bs := by cases b <;> (simp; try omega)
      simp [bitsToNat, Nat.testBit_succ, this, ih]

/-- Bit `i` of an assembled byte is element `i` of the sequence. -/
theorem byteOfBits_getLsbD (bs : Bits) (i : Nat) (h : i < 8) : (byteOfBits bs).getLsbD i = bs.getD i false := by
  rw [byteOfBits, BitVec.getLsbD_ofNat, bitsToNat_testBit]
  simp [h]

/-- A byte is assembled from its own bits. -/
@[simp] theorem byteOfBits_bitsOf (b : Byte) : byteOfBits (bitsOf 8 b) = b := by
  apply BitVec.eq_of_getLsbD_eq
  intro i hi
  simp [byteOfBits_getLsbD _ i hi, bitsOf_getElem? 8 b i hi]

/-- Eight bits are the bits of the byte they assemble. -/
theorem bitsOf_byteOfBits (bs : Bits) (h : bs.length = 8) : bitsOf 8 (byteOfBits bs) = bs := by
  apply List.ext_getElem?
  intro i
  by_cases hi : i < 8
  · rw [bitsOf_getElem? 8 _ i hi, byteOfBits_getLsbD _ i hi]
    simp [List.getElem?_eq_getElem (by omega : i < bs.length)]
  · rw [List.getElem?_eq_none (by simp; omega), List.getElem?_eq_none (by omega)]

@[simp] theorem packBits_length (s : Bits) : (packBits s).length = streamBytes s.length := by
  simp [packBits]

@[simp] theorem unpackBits_length (n : Nat) (d : Bytes) : (unpackBits n d).length = n := by
  simp [unpackBits]

/-- R44: bit `k mod 8` of data byte `k div 8` is bit `k` of the stream. -/
theorem packBits_bit (s : Bits) (k : Nat) (h : k / 8 < streamBytes s.length) :
    ((packBits s).getD (k / 8) 0).getLsbD (k % 8) = s.getD k false := by
  have h8 : 8 * (k / 8) + k % 8 = k := by omega
  have hm : k % 8 < 8 := by omega
  have hj : (packBits s).getD (k / 8) 0 = byteOfBits ((s.drop (8 * (k / 8))).take 8) := by
    simp [packBits, h]
  rw [hj, byteOfBits_getLsbD _ _ hm]
  simp [List.getElem?_drop, hm, h8]

/-- The bits of a returned stream are read back from its data bytes. -/
theorem unpackBits_packBits (s : Bits) : unpackBits s.length (packBits s) = s := by
  apply List.ext_getElem?
  intro k
  by_cases hk : k < s.length
  · have hb : k / 8 < streamBytes s.length := by unfold streamBytes; omega
    have h := packBits_bit s k hb
    simp only [unpackBits, List.getElem?_map, List.getElem?_range hk, Option.map_some, h]
    simp [List.getElem?_eq_getElem hk]
  · rw [List.getElem?_eq_none (by simp; omega), List.getElem?_eq_none (by omega)]

theorem u16OfBytes_toNat (lo hi : Byte) : (u16OfBytes lo hi).toNat = lo.toNat + 256 * hi.toNat := by
  have hl := lo.isLt
  have hh := hi.isLt
  have : lo.toNat ||| hi.toNat <<< 8 = hi.toNat <<< 8 + lo.toNat := by
    rw [Nat.or_comm, ← Nat.shiftLeft_add_eq_or_of_lt (by omega : lo.toNat < 2 ^ 8)]
  simp only [u16OfBytes, BitVec.toNat_or, BitVec.toNat_shiftLeft, BitVec.toNat_setWidth]
  rw [Nat.mod_eq_of_lt (by omega : lo.toNat < 2 ^ 16), Nat.mod_eq_of_lt (by omega : hi.toNat < 2 ^ 16),
    Nat.mod_eq_of_lt (by rw [Nat.shiftLeft_eq]; omega), this, Nat.shiftLeft_eq]
  omega

theorem u16Bytes_toNat (c : BitVec 16) :
    (c.extractLsb' 0 8).toNat + 256 * (c.extractLsb' 8 8).toNat = c.toNat := by
  have h := c.isLt
  simp only [BitVec.extractLsb'_toNat, Nat.shiftRight_eq_div_pow]
  omega

/-- A u16 is read back from its two bytes. -/
@[simp] theorem u16OfBytes_u16Bytes (c : BitVec 16) : u16OfBytes (c.extractLsb' 0 8) (c.extractLsb' 8 8) = c :=
  BitVec.eq_of_toNat_eq (by rw [u16OfBytes_toNat, u16Bytes_toNat])

/-- Two bytes are read back from the u16 they make. -/
theorem u16Bytes_u16OfBytes (lo hi : Byte) : u16Bytes (u16OfBytes lo hi) = [lo, hi] := by
  have h := u16OfBytes_toNat lo hi
  have hl := lo.isLt
  have hh := hi.isLt
  simp only [u16Bytes, List.cons.injEq, and_true]
  constructor <;> apply BitVec.eq_of_toNat_eq <;>
    simp only [BitVec.extractLsb'_toNat, Nat.shiftRight_eq_div_pow, h] <;> omega

/-- The bit count of a returned stream is read back from its first two bytes. -/
theorem stream_count (s : Bits) (h : s.length < 65536) : (BitVec.ofNat 16 s.length).toNat = s.length := by
  simp; omega

end Sys2Proof.Machine
end

