-- ==== Sys2Proof/Laws/Check.lean ====
section
/-! SUPPORT. Parity, standard frames and CRC_A: lengths, the 9-bit groups of a frame, and the CRC as a fold. -/

namespace Sys2Proof.Machine

@[simp] theorem stdByteBits_length (b : Byte) : (stdByteBits b).length = 9 := by
  simp [stdByteBits]

@[simp] theorem stdBits_nil : stdBits [] = [] := rfl

@[simp] theorem stdBits_cons (b : Byte) (d : Bytes) : stdBits (b :: d) = stdByteBits b ++ stdBits d := rfl

/-- The bits of a sequence of 9-bit groups. -/
def groupBits (gs : List (Bits × Bool)) : Bits :=
  gs.flatMap fun g => g.1 ++ [g.2]

@[simp] theorem groupBits_nil : groupBits [] = [] := rfl

@[simp] theorem groupBits_cons (g : Bits × Bool) (gs : List (Bits × Bool)) :
    groupBits (g :: gs) = g.1 ++ g.2 :: groupBits gs := by
  simp [groupBits]

theorem groupBits_append (gs hs : List (Bits × Bool)) : groupBits (gs ++ hs) = groupBits gs ++ groupBits hs := by
  simp [groupBits]

theorem groupBits_length (gs : List (Bits × Bool)) (h : ∀ g ∈ gs, g.1.length = 8) :
    (groupBits gs).length = 9 * gs.length := by
  induction gs with
  | nil => rfl
  | cons g gs ih =>
    have h1 := h g (by simp)
    have h2 := ih fun g hg => h g (by simp [hg])
    simp only [groupBits_cons, List.length_append, List.length_cons, h1, h2]
    omega

/-- The groups of one more byte of a frame. -/
theorem frameGroups_succ (n : Nat) (s : Bits) :
    frameGroups (n + 1) s = (s.take 8, s.getD 8 false) :: frameGroups n (s.drop 9) := by
  have h : ∀ j, 9 * (j + 1) = 9 + 9 * j := by omega
  have h' : ∀ j, 9 + 9 * j + 8 = 9 + (9 * j + 8) := by omega
  simp only [frameGroups, List.range_succ_eq_map, List.map_cons, List.map_map, List.cons.injEq]
  refine ⟨by simp, ?_⟩
  apply List.map_congr_left
  intro j _
  simp [h, h', List.drop_drop]

/-- Groups of eight bits and a parity bit are read back from their own bits. -/
theorem frameGroups_groupBits (gs : List (Bits × Bool)) (h : ∀ g ∈ gs, g.1.length = 8) :
    frameGroups gs.length (groupBits gs) = gs := by
  induction gs with
  | nil => rfl
  | cons g gs ih =>
    have h1 : g.1.length = 8 := h g (by simp)
    have h2 := ih fun g hg => h g (by simp [hg])
    have hd : (g.1 ++ g.2 :: groupBits gs).drop 9 = groupBits gs := by
      simp [List.drop_append, h1]
    simp only [List.length_cons, frameGroups_succ, groupBits_cons, hd, h2]
    simp [h1]

/-- A standard frame is the groups of its bytes. -/
theorem stdBits_eq_groupBits (d : Bytes) : stdBits d = groupBits (d.map fun b => (bitsOf 8 b, oddpar b)) := by
  induction d with
  | nil => rfl
  | cons b d ih => simp [stdByteBits, ih]

@[simp] theorem frameGroups_length (n : Nat) (s : Bits) : (frameGroups n s).length = n := by
  simp [frameGroups]

/-- Every group of a received frame of `n` bytes has eight data bits. -/
theorem frameGroups_data_length (n : Nat) (s : Bits) (h : 9 * n ≤ s.length) (g : Bits × Bool)
    (hg : g ∈ frameGroups n s) : g.1.length = 8 := by
  simp only [frameGroups, List.mem_map, List.mem_range] at hg
  obtain ⟨j, hj, rfl⟩ := hg
  simp
  omega

@[simp] theorem crcA_nil : crcA [] = crcInit := rfl

/-- The CRC_A of one more byte (R120). -/
theorem crcA_append_singleton (d : Bytes) (b : Byte) : crcA (d ++ [b]) = crcStep (crcA d) b := by
  simp [crcA]

/-- The accumulator goes on from any point (R120). -/
theorem crcA_append (d e : Bytes) : crcA (d ++ e) = e.foldl crcStep (crcA d) := by
  simp [crcA]

@[simp] theorem withCrc_false (d : Bytes) : withCrc false d = d := rfl

@[simp] theorem withCrc_true (d : Bytes) : withCrc true d = d ++ u16Bytes (crcA d) := rfl

theorem withCrc_length (c : Bool) (d : Bytes) : (withCrc c d).length = d.length + 2 * c.toNat := by
  cases c <;> simp [u16Bytes]

/-- A frame with its CRC_A appended passes the check (R123). -/
theorem crcOk_withCrc (d : Bytes) : crcOk (withCrc true d) = true := by
  simp [crcOk, dropCrc, u16Bytes]

/-- The data come back from a frame with or without its CRC_A. -/
theorem framePayload_withCrc (c : Bool) (d : Bytes) : framePayload c (withCrc c d) = d := by
  cases c <;> simp [framePayload, dropCrc, u16Bytes]

/-- The bits of a shift of the CRC register (R120). -/
theorem crcShift_getLsbD (c : BitVec 16) (i : Nat) :
    (crcShift c).getLsbD i = (c.getLsbD (i + 1) ^^ (c.getLsbD 0 && crcPoly.getLsbD i)) := by
  unfold crcShift
  split <;> simp_all [Nat.add_comm]

/-- A shift of the CRC register loses nothing: its top bit tells whether the polynomial went in. -/
theorem crcShift_injective {c c' : BitVec 16} (h : crcShift c = crcShift c') : c = c' := by
  have top (x : BitVec 16) : (crcShift x).getLsbD 15 = x.getLsbD 0 := by
    rw [crcShift_getLsbD, BitVec.getLsbD_of_ge x 16 (Nat.le_refl 16), show crcPoly.getLsbD 15 = true from rfl,
      Bool.and_true, Bool.false_xor]
  have h0 : c.getLsbD 0 = c'.getLsbD 0 := by rw [← top c, ← top c', h]
  apply BitVec.eq_of_getLsbD_eq
  intro i hi
  cases i with
  | zero => exact h0
  | succ i =>
    have := congrArg (fun x : BitVec 16 => x.getLsbD i) h
    simp only [crcShift_getLsbD, h0] at this
    exact Bool.xor_left_inj.mp this

end Sys2Proof.Machine
end

