-- ==== Sys2Proof/Laws/State.lean ====
section
/-! SUPPORT. One lemma per field per update of the state: `endCommand`, `discard` and `clock`. -/

namespace Sys2Proof.Machine

section EndCommand

variable (b : Bool) (st : Status) (p : Bytes) (s : State)

@[simp] theorem endCommand_lfsr : (endCommand b st p s).lfsr = s.lfsr := rfl
@[simp] theorem endCommand_keyed : (endCommand b st p s).keyed = s.keyed := rfl
@[simp] theorem endCommand_clkcnt : (endCommand b st p s).clkcnt = s.clkcnt := rfl
@[simp] theorem endCommand_crcacc : (endCommand b st p s).crcacc = s.crcacc := rfl
@[simp] theorem endCommand_errSticky : (endCommand b st p s).errSticky = stickyAfter st s := rfl
@[simp] theorem endCommand_lastSt : (endCommand b st p s).lastSt = lastStAfter b st s := rfl
@[simp] theorem endCommand_pending : (endCommand b st p s).pending = s.pending := rfl
@[simp] theorem endCommand_responses : (endCommand b st p s).responses = s.responses ++ [st.code :: p] := rfl

end EndCommand

section Discard

variable (s : State)

@[simp] theorem discard_lfsr : (discard s).lfsr = 0 := rfl
@[simp] theorem discard_keyed : (discard s).keyed = false := rfl
@[simp] theorem discard_clkcnt : (discard s).clkcnt = 0 := rfl
@[simp] theorem discard_crcacc : (discard s).crcacc = s.crcacc := rfl
@[simp] theorem discard_errSticky : (discard s).errSticky = s.errSticky := rfl
@[simp] theorem discard_lastSt : (discard s).lastSt = s.lastSt := rfl
@[simp] theorem discard_pending : (discard s).pending = s.pending := rfl
@[simp] theorem discard_responses : (discard s).responses = s.responses := rfl
@[simp] theorem discard_sticky : (discard s).sticky = s.sticky := rfl

end Discard

section Clock

variable (inp e : Bool) (s : State)

@[simp] theorem clock_ks : (clock inp e s).1 = filter s.lfsr := rfl
@[simp] theorem clock_lfsr :
    (clock inp e s).2.lfsr = shiftIn (feedback s.lfsr ^^ inp ^^ (e && filter s.lfsr)) s.lfsr := rfl
@[simp] theorem clock_keyed : (clock inp e s).2.keyed = s.keyed := rfl
@[simp] theorem clock_clkcnt : (clock inp e s).2.clkcnt = s.clkcnt + 1 := rfl
@[simp] theorem clock_crcacc : (clock inp e s).2.crcacc = s.crcacc := rfl
@[simp] theorem clock_errSticky : (clock inp e s).2.errSticky = s.errSticky := rfl
@[simp] theorem clock_lastSt : (clock inp e s).2.lastSt = s.lastSt := rfl
@[simp] theorem clock_pending : (clock inp e s).2.pending = s.pending := rfl
@[simp] theorem clock_responses : (clock inp e s).2.responses = s.responses := rfl

end Clock

/-- The values a status gives the two registers that record it. -/
@[simp] theorem stickyAfter_ok (s : State) : stickyAfter .ok s = s.errSticky := rfl
@[simp] theorem lastStAfter_status (st : Status) (s : State) : lastStAfter true st s = s.lastSt := rfl
@[simp] theorem lastStAfter_command (st : Status) (s : State) : lastStAfter false st s = st.code := rfl

theorem stickyAfter_of_ne_ok {st : Status} (h : st ≠ .ok) (s : State) :
    stickyAfter st s = s.sticky ||| st.stickyBit := by
  simp [stickyAfter, h]

/-- R26: the sticky bit of a failing status is bit `c-1`. -/
theorem stickyBit_eq_shift {st : Status} (h : st ≠ .ok) : st.stickyBit = 1#8 <<< (st.code.toNat - 1) := by
  cases st <;> first | exact absurd rfl h | rfl

end Sys2Proof.Machine
end

