-- ==== Sys2Proof/Laws/Ops.lean ====
section
/-! SUPPORT. For each shared operation, once, everything it can do. -/

namespace Sys2Proof.Machine

@[simp] theorem maxFrameBytes_eq : maxFrameBytes = 32 := rfl

/-- The reserved bits of a byte are clear exactly when none of them is 1 (R202). -/
theorem reservedClear_eq (mask b : Byte) : reservedClear mask b = decide (b &&& mask = 0) := by
  rw [Bool.eq_iff_iff, reservedClear, beq_iff_eq, decide_eq_true_eq]

/-! ### Ending a command -/

@[simp] theorem require_true (st : Status) (s : State) (go : Result) : require true st s go = go := rfl

@[simp] theorem require_false (st : Status) (s : State) (go : Result) : require false st s go = raise st s := rfl

/-- `require` either raises its status or goes on. -/
theorem require_cases {c : Bool} {st : Status} {s : State} {go r : Result} (h : require c st s go = r) :
    (c = false ∧ r = raise st s) ∨ (c = true ∧ r = go) := by
  cases c
  · exact .inl ⟨rfl, h.symm⟩
  · exact .inr ⟨rfl, h.symm⟩

/-- What `respond` answers: the command ends OK, and only `LASTST` and the response are written. -/
theorem respond_eq (p : Bytes) (s : State) :
    respond p s = .next { s with lastSt := 0x00, responses := s.responses ++ [0x00 :: p] } := rfl

/-- What `respondStatus` answers: only the response is written. -/
theorem respondStatus_eq (p : Bytes) (s : State) :
    respondStatus p s = .next { s with responses := s.responses ++ [0x00 :: p] } := rfl

/-- What `raise` answers on a failing status: `LASTST`, the sticky bit and the one-byte response are written, nothing else. -/
theorem raise_eq {st : Status} (h : st ≠ .ok) (s : State) :
    raise st s = .next { s with
      lastSt := st.code, errSticky := s.sticky ||| st.stickyBit, responses := s.responses ++ [[st.code]] } := by
  simp [raise, endCommand, lastStAfter, stickyAfter, h]

/-! ### Clocking the cipher -/

/-- `t` differs from `s` in `LFSR` at most, and in `CLKCNT` by `n` clock steps. -/
def ClockedBy (n : Nat) (s t : State) : Prop :=
  t = { s with lfsr := t.lfsr, clkcnt := s.clkcnt + BitVec.ofNat 32 n }

theorem ClockedBy.zero (s : State) : ClockedBy 0 s s := by
  simp [ClockedBy]

theorem ClockedBy.trans {n m : Nat} {s t u : State} (h : ClockedBy n s t) (h' : ClockedBy m t u) :
    ClockedBy (n + m) s u := by
  unfold ClockedBy at *
  rw [h] at h'
  rw [h']
  simp [BitVec.add_assoc, BitVec.ofNat_add]

section ClockedByFields

variable {n : Nat} {s t : State} (h : ClockedBy n s t)
include h

theorem ClockedBy.keyed : t.keyed = s.keyed := by rw [h]
theorem ClockedBy.clkcnt : t.clkcnt = s.clkcnt + BitVec.ofNat 32 n := by rw [h]
theorem ClockedBy.crcacc : t.crcacc = s.crcacc := by rw [h]
theorem ClockedBy.errSticky : t.errSticky = s.errSticky := by rw [h]
theorem ClockedBy.sticky : t.sticky = s.sticky := by rw [h]; rfl
theorem ClockedBy.lastSt : t.lastSt = s.lastSt := by rw [h]
theorem ClockedBy.pending : t.pending = s.pending := by rw [h]
theorem ClockedBy.responses : t.responses = s.responses := by rw [h]

end ClockedByFields

theorem clock_clockedBy (inp e : Bool) (s : State) : ClockedBy 1 s (clock inp e s).2 := rfl

@[simp] theorem clockBits_nil (e : Bool) (s : State) : clockBits e [] s = ([], s) := rfl

theorem clockBits_cons (e b : Bool) (bs : Bits) (s : State) :
    clockBits e (b :: bs) s =
      (filter s.lfsr :: (clockBits e bs (clock b e s).2).1, (clockBits e bs (clock b e s).2).2) := rfl

@[simp] theorem clockBits_length (e : Bool) (bs : Bits) (s : State) : (clockBits e bs s).1.length = bs.length := by
  induction bs generalizing s with
  | nil => rfl
  | cons b bs ih => simp [clockBits_cons, ih]

/-- Clocking `n` bits is `n` clock steps and writes nothing but `LFSR` and `CLKCNT`. -/
theorem clockBits_clockedBy (e : Bool) (bs : Bits) (s : State) : ClockedBy bs.length s (clockBits e bs s).2 := by
  induction bs generalizing s with
  | nil => exact .zero s
  | cons b bs ih =>
    rw [List.length_cons, Nat.add_comm]
    exact (clock_clockedBy b e s).trans (ih _)

/-- Clocking a concatenation is clocking its parts in order. -/
theorem clockBits_append (e : Bool) (bs cs : Bits) (s : State) :
    clockBits e (bs ++ cs) s =
      ((clockBits e bs s).1 ++ (clockBits e cs (clockBits e bs s).2).1, (clockBits e cs (clockBits e bs s).2).2) := by
  induction bs generalizing s with
  | nil => rfl
  | cons b bs ih => simp [clockBits_cons, ih]

/-- The keystream and the register after it depend on the register alone. -/
theorem clockBits_congr (e : Bool) (bs : Bits) {s u : State} (h : s.lfsr = u.lfsr) :
    (clockBits e bs s).1 = (clockBits e bs u).1 ∧ (clockBits e bs s).2.lfsr = (clockBits e bs u).2.lfsr := by
  induction bs generalizing s u with
  | nil => exact ⟨rfl, h⟩
  | cons b bs ih =>
    have h' : (clock b e s).2.lfsr = (clock b e u).2.lfsr := by simp [h]
    simp [clockBits_cons, h, ih h']

@[simp] theorem feedbackInputs_length (p : Bool) (bs : Bits) : (feedbackInputs p bs).length = bs.length := by
  simp [feedbackInputs]

@[simp] theorem feedbackInputs_true (bs : Bits) : feedbackInputs true bs = bs := by
  simp [feedbackInputs]

theorem feedbackInputs_false (bs : Bits) : feedbackInputs false bs = List.replicate bs.length false := by
  simp [feedbackInputs]

/-- A byte is eight clock steps. -/
theorem clockByte_clockedBy (e : Bool) (b : Byte) (s : State) : ClockedBy 8 s (clockByte e b s).2 := by
  simpa [clockByte] using clockBits_clockedBy e (bitsOf 8 b) s

/-- A byte string is eight clock steps for each byte. -/
theorem clockBytes_clockedBy (e : Bool) (bs : Bytes) (s : State) :
    ClockedBy (8 * bs.length) s (clockBytes e bs s).2 := by
  induction bs generalizing s with
  | nil => exact .zero s
  | cons b bs ih =>
    rw [List.length_cons, Nat.mul_add, Nat.add_comm]
    exact (clockByte_clockedBy e b s).trans (ih _)

/-! ### Encrypted frames -/

/-- The two halves of one byte of an encrypted frame. -/
theorem encryptByte_fst (p : Bool) (b : Byte) (s : State) :
    (encryptByte p b s).1 = List.zipWith xor (bitsOf 8 b) (clockBits false (feedbackInputs p (bitsOf 8 b)) s).1
      ++ [oddpar b ^^ filter (encryptByte p b s).2.lfsr] := rfl

@[simp] theorem encryptByte_length (p : Bool) (b : Byte) (s : State) : (encryptByte p b s).1.length = 9 := by
  simp [encryptByte_fst]

/-- R181: the parity bit is not clocked, so a byte of an encrypted frame is eight clock steps. -/
theorem encryptByte_clockedBy (p : Bool) (b : Byte) (s : State) : ClockedBy 8 s (encryptByte p b s).2 := by
  simpa [encryptByte] using clockBits_clockedBy false (feedbackInputs p (bitsOf 8 b)) s

@[simp] theorem encryptFrame_nil (p : Bool) (s : State) : encryptFrame p [] s = ([], s) := rfl

theorem encryptFrame_cons (p : Bool) (b : Byte) (d : Bytes) (s : State) :
    encryptFrame p (b :: d) s =
      ((encryptByte p b s).1 ++ (encryptFrame p d (encryptByte p b s).2).1,
        (encryptFrame p d (encryptByte p b s).2).2) := rfl

@[simp] theorem encryptFrame_length (p : Bool) (d : Bytes) (s : State) :
    (encryptFrame p d s).1.length = 9 * d.length := by
  induction d generalizing s with
  | nil => rfl
  | cons b d ih => simp [encryptFrame_cons, ih]; omega

/-- R181: an encrypted frame of `n` bytes is exactly `8n` clock steps. -/
theorem encryptFrame_clockedBy (p : Bool) (d : Bytes) (s : State) :
    ClockedBy (8 * d.length) s (encryptFrame p d s).2 := by
  induction d generalizing s with
  | nil => exact .zero s
  | cons b d ih =>
    rw [List.length_cons, Nat.mul_add, Nat.add_comm]
    exact (encryptByte_clockedBy p b s).trans (ih _)

/-- One byte of a received encrypted frame is as many clock steps as its data bits. -/
theorem decryptByte_clockedBy (p : Bool) (g : Bits × Bool) (s : State) :
    ClockedBy g.1.length s (decryptByte p g s).2 := by
  simpa [decryptByte] using clockBits_clockedBy p (feedbackInputs p g.1) s

@[simp] theorem decryptFrame_nil (p : Bool) (s : State) : decryptFrame p [] s = ([], s) := rfl

theorem decryptFrame_cons (p : Bool) (g : Bits × Bool) (gs : List (Bits × Bool)) (s : State) :
    decryptFrame p (g :: gs) s =
      ((decryptByte p g s).1 :: (decryptFrame p gs (decryptByte p g s).2).1,
        (decryptFrame p gs (decryptByte p g s).2).2) := rfl

@[simp] theorem decryptFrame_length (p : Bool) (gs : List (Bits × Bool)) (s : State) :
    (decryptFrame p gs s).1.length = gs.length := by
  induction gs generalizing s with
  | nil => rfl
  | cons g gs ih => simp [decryptFrame_cons, ih]

/-- A received frame of `n` whole groups is exactly `8n` clock steps. -/
theorem decryptFrame_clockedBy (p : Bool) (gs : List (Bits × Bool)) (s : State) (h : ∀ g ∈ gs, g.1.length = 8) :
    ClockedBy (8 * gs.length) s (decryptFrame p gs s).2 := by
  induction gs generalizing s with
  | nil => exact .zero s
  | cons g gs ih =>
    have hg := decryptByte_clockedBy p g s
    rw [h g (by simp)] at hg
    rw [List.length_cons, Nat.mul_add, Nat.add_comm]
    exact hg.trans (ih _ fun g hg => h g (by simp [hg]))

/-- R148: a receiver with the sender's register, fed the sender's ciphertext, produces the sender's keystream and keeps the same
register, with or without plaintext feedback. -/
theorem clockBits_receiver (p : Bool) (bs : Bits) {s u : State} (h : s.lfsr = u.lfsr) :
    let k := clockBits false (feedbackInputs p bs) s
    let q := clockBits p (feedbackInputs p (List.zipWith xor bs k.1)) u
    q.1 = k.1 ∧ q.2.lfsr = k.2.lfsr := by
  induction bs generalizing s u with
  | nil => exact ⟨rfl, h.symm⟩
  | cons b bs ih =>
    have hc : (clock (p && b) false s).2.lfsr = (clock (p && (b ^^ filter s.lfsr)) p u).2.lfsr := by
      cases p <;> simp [h]
    have := ih hc
    simp only [feedbackInputs, List.map_cons, clockBits_cons, List.zipWith_cons_cons] at this ⊢
    exact ⟨by rw [this.1, h], this.2⟩

end Sys2Proof.Machine
end

