-- ==== Sys2Proof/Laws/Exec.lean ====
section
/-! SUPPORT. Once, everything a command can do: how it ends, and what it may have written before it ends. -/

namespace Sys2Proof.Machine

/-- STATUS, the one command whose epilogue leaves `LASTST` alone (R206). -/
def skipsLastSt : Instr → Bool
  | .status => true
  | _ => false

/-- What a command that ends OK has written before its epilogue: `x` is the state the epilogue works on. -/
def OkEffect (s x : State) : Instr → Prop
  | .clearErr => x = { s with errSticky := 0x00 }
  | .blockReset => x = { s with lfsr := 0, keyed := false, clkcnt := 0, crcacc := crcInit, errSticky := 0x00 }
  | .fcCrcInit => x = { s with crcacc := crcInit }
  | .fcCrcUpdate b => x = { s with crcacc := crcStep s.crcacc b }
  | .c1Discard => x = discard s
  | .c1LoadKey k0 k1 k2 k3 k4 k5 =>
    x = { s with lfsr := keyRegister k0 k1 k2 k3 k4 k5, keyed := true, clkcnt := 0 }
  | .c1Bit _ _ | .c1Nibble _ _ | .c1Byte _ _ | .c1Word _ _ _ _ _ | .c1EncByte _ _ | .c1DecByte _ _ | .cfEnc _ _ _
  | .cfDec _ _ _ _ => s.keyed = true ∧ ∃ n, ClockedBy n s x
  | .nop | .status | .fcParity _ | .fcEncShort _ | .fcEncStd _ _ | .fcDecStd _ _ _ | .fcEnc4Bit _ | .fcDec4Bit _ _ _
  | .fcCrc _ | .fcCrcCheck _ | .fcCrcRead | .c1Peek | .c1ReadState | .nhSuc _ _ _ _ _ => x = s

/-- What a command that fails has written before its epilogue: nothing, but that CF_DEC ending with PARITY or CRC has discarded
the cipher (R185, R201). -/
def FailEffect (st : Status) (s x : State) : Instr → Prop
  | .cfDec _ _ _ _ => if st = .parity ∨ st = .crc then x = discard s else x = s
  | _ => x = s

/-- How a command ends: with a status, a payload that is empty unless the status is OK, and the effect its rule gives it. -/
def Ends (i : Instr) (s : State) (r : Result) : Prop :=
  ∃ (st : Status) (p : Bytes) (x : State),
    r = .next (endCommand (skipsLastSt i) st p x) ∧ (st ≠ .ok → p = [] ∧ FailEffect st s x i) ∧
      (st = .ok → OkEffect s x i)

/-- A check before a command executes keeps the way it ends. -/
theorem Ends.require {i : Instr} {s : State} {c : Bool} {st : Status} {go : Result} (hi : skipsLastSt i = false)
    (hst : st ≠ .ok) (hf : FailEffect st s s i) (hgo : c = true → Ends i s go) : Ends i s (require c st s go) := by
  cases c
  · exact ⟨st, [], s, by simp [raise, hi], fun _ => ⟨rfl, hf⟩, fun h => absurd h hst⟩
  · exact hgo rfl

/-- A command that responds ends OK. -/
theorem Ends.respond {i : Instr} {s x : State} (p : Bytes) (hi : skipsLastSt i = false) (hx : OkEffect s x i) :
    Ends i s (respond p x) :=
  ⟨.ok, p, x, by simp [Machine.respond, hi], fun h => absurd rfl h, fun _ => hx⟩

/-- A received frame is some number of clock steps. -/
theorem decryptFrame_clocked (p : Bool) (gs : List (Bits × Bool)) (s : State) :
    ∃ n, ClockedBy n s (decryptFrame p gs s).2 := by
  induction gs generalizing s with
  | nil => exact ⟨0, .zero s⟩
  | cons g gs ih =>
    obtain ⟨n, hn⟩ := ih (decryptByte p g s).2
    exact ⟨_, (decryptByte_clockedBy p g s).trans hn⟩

/-- Discarding forgets how far the cipher was clocked. -/
theorem ClockedBy.discard_eq {n : Nat} {s x : State} (h : ClockedBy n s x) : discard x = discard s := by
  unfold ClockedBy at h
  rw [h]
  rfl

/-- Every command ends, in one of these ways. -/
theorem exec_ends (i : Instr) (s : State) : Ends i s (exec i s) := by
  cases i with
  | nop => exact .respond _ rfl rfl
  | status => exact ⟨.ok, _, s, rfl, fun h => absurd rfl h, fun _ => rfl⟩
  | clearErr => exact .respond _ rfl rfl
  | blockReset => exact .respond _ rfl rfl
  | fcParity imm => exact .respond _ rfl rfl
  | fcEncShort imm => exact .require rfl (by decide) rfl fun _ => .respond _ rfl rfl
  | fcEncStd ctl d =>
    exact .require rfl (by decide) rfl fun _ => .require rfl (by decide) rfl fun _ => .respond _ rfl rfl
  | fcDecStd ctl nb bits =>
    exact .require rfl (by decide) rfl fun _ => .require rfl (by decide) rfl fun _ =>
      .require rfl (by decide) rfl fun _ => .require rfl (by decide) rfl fun _ => .respond _ rfl rfl
  | fcEnc4Bit imm => exact .require rfl (by decide) rfl fun _ => .respond _ rfl rfl
  | fcDec4Bit ctl nb bits =>
    exact .require rfl (by decide) rfl fun _ => .require rfl (by decide) rfl fun _ => .respond _ rfl rfl
  | fcCrc d => exact .require rfl (by decide) rfl fun _ => .respond _ rfl rfl
  | fcCrcCheck d => exact .require rfl (by decide) rfl fun _ => .respond _ rfl rfl
  | fcCrcInit => exact .respond _ rfl rfl
  | fcCrcUpdate imm => exact .respond _ rfl rfl
  | fcCrcRead => exact .respond _ rfl rfl
  | c1Discard => exact .respond _ rfl rfl
  | c1LoadKey => exact .respond _ rfl rfl
  | c1Peek => exact .require rfl (by decide) rfl fun _ => .respond _ rfl rfl
  | c1ReadState => exact .respond _ rfl rfl
  | c1Bit m imm =>
    exact .require rfl (by decide) rfl fun _ => .require rfl (by decide) rfl fun hk =>
      .respond _ rfl ⟨hk, _, clock_clockedBy _ _ _⟩
  | c1Nibble m imm =>
    exact .require rfl (by decide) rfl fun _ => .require rfl (by decide) rfl fun hk =>
      .respond _ rfl ⟨hk, _, clockBits_clockedBy _ _ _⟩
  | c1Byte m imm =>
    exact .require rfl (by decide) rfl fun hk => .respond _ rfl ⟨hk, _, clockByte_clockedBy _ _ _⟩
  | c1Word m w0 w1 w2 w3 =>
    exact .require rfl (by decide) rfl fun hk => .respond _ rfl ⟨hk, _, clockBytes_clockedBy _ _ _⟩
  | c1EncByte m imm =>
    exact .require rfl (by decide) rfl fun hk => .respond _ rfl ⟨hk, _, clockBits_clockedBy _ _ _⟩
  | c1DecByte m imm =>
    exact .require rfl (by decide) rfl fun hk => .respond _ rfl ⟨hk, _, clockBits_clockedBy _ _ _⟩
  | cfEnc m ctl d =>
    exact .require rfl (by decide) rfl fun _ => .require rfl (by decide) rfl fun _ =>
      .require rfl (by decide) rfl fun hk => .respond _ rfl ⟨hk, _, encryptFrame_clockedBy _ _ _⟩
  | cfDec m ctl nb bits =>
    refine .require rfl (by decide) rfl fun _ => .require rfl (by decide) rfl fun _ =>
      .require rfl (by decide) rfl fun hk => ?_
    obtain ⟨n, hn⟩ := decryptFrame_clocked m (frameGroups (nb.toNat / 9) (unpackBits nb.toNat bits)) s
    generalize decryptFrame m (frameGroups (nb.toNat / 9) (unpackBits nb.toNat bits)) s = r at hn
    dsimp only
    cases r.1.all Prod.snd with
    | false => exact ⟨.parity, [], discard r.2, rfl, fun _ => ⟨rfl, hn.discard_eq⟩, nofun⟩
    | true =>
      rw [require_true]
      cases !crcFlag ctl || crcOk (r.1.map Prod.fst) with
      | false => exact ⟨.crc, [], discard r.2, rfl, fun _ => ⟨rfl, hn.discard_eq⟩, nofun⟩
      | true => exact .respond _ rfl ⟨hk, n, hn⟩
  | nhSuc => exact .respond _ rfl rfl

/-- A submitted command is taken off the list and executed. -/
theorem step_of_pending {s : State} {c : Bytes} {rest : List Bytes} (h : s.pending = c :: rest) :
    step s = execCommand c { s with pending := rest } := by
  simp [step, h]

end Sys2Proof.Machine
end

