-- ==== Sys2Proof/Laws/PerInstr.lean ====
section
/-! SUPPORT. Per instruction: the opcode byte of a command's buffer is the one its row of the opcode map has
(30_encoding.md R66; the mode bit M of R67 is outside the mask of a mode pair). -/

namespace Sys2Proof.Laws

/-- The opcode byte of a command is in the row with this mask and match. -/
def inRow (i : Instr) (mask pattern : Byte) : Prop :=
  ∃ op rest, encode i = op :: rest ∧ op &&& mask = pattern

/-- The row of R66 a command belongs to, as mask and match. -/
def OpcodeRow.Statement : Instr → Prop
  | i@.nop => inRow i 0xFF 0x00
  | i@.status => inRow i 0xFF 0x01
  | i@.clearErr => inRow i 0xFF 0x02
  | i@.blockReset => inRow i 0xFF 0x03
  | i@(.fcParity _) => inRow i 0xFF 0x10
  | i@(.fcEncShort _) => inRow i 0xFF 0x11
  | i@(.fcEncStd _ _) => inRow i 0xFF 0x12
  | i@(.fcDecStd _ _ _) => inRow i 0xFF 0x13
  | i@(.fcEnc4Bit _) => inRow i 0xFF 0x14
  | i@(.fcDec4Bit _ _ _) => inRow i 0xFF 0x15
  | i@(.fcCrc _) => inRow i 0xFF 0x16
  | i@(.fcCrcCheck _) => inRow i 0xFF 0x17
  | i@.fcCrcInit => inRow i 0xFF 0x18
  | i@(.fcCrcUpdate _) => inRow i 0xFF 0x19
  | i@.fcCrcRead => inRow i 0xFF 0x1A
  | i@.c1Discard => inRow i 0xFF 0x20
  | i@(.c1LoadKey _ _ _ _ _ _) => inRow i 0xFF 0x21
  | i@.c1Peek => inRow i 0xFF 0x22
  | i@.c1ReadState => inRow i 0xFF 0x23
  | i@(.c1Bit _ _) => inRow i 0xFE 0x24
  | i@(.c1Nibble _ _) => inRow i 0xFE 0x26
  | i@(.c1Byte _ _) => inRow i 0xFE 0x28
  | i@(.c1Word _ _ _ _ _) => inRow i 0xFE 0x2A
  | i@(.c1EncByte _ _) => inRow i 0xFE 0x2C
  | i@(.c1DecByte _ _) => inRow i 0xFE 0x2E
  | i@(.cfEnc _ _ _) => inRow i 0xFE 0x30
  | i@(.cfDec _ _ _ _) => inRow i 0xFE 0x32
  | i@(.nhSuc _ _ _ _ _) => inRow i 0xFF 0x40

theorem OpcodeRow.nop : OpcodeRow.Statement .nop :=
  ⟨_, _, rfl, rfl⟩

theorem OpcodeRow.status : OpcodeRow.Statement .status :=
  ⟨_, _, rfl, rfl⟩

theorem OpcodeRow.clearErr : OpcodeRow.Statement .clearErr :=
  ⟨_, _, rfl, rfl⟩

theorem OpcodeRow.blockReset : OpcodeRow.Statement .blockReset :=
  ⟨_, _, rfl, rfl⟩

theorem OpcodeRow.fcParity (imm : Byte) : OpcodeRow.Statement (.fcParity imm) :=
  ⟨_, _, rfl, rfl⟩

theorem OpcodeRow.fcEncShort (imm : Byte) : OpcodeRow.Statement (.fcEncShort imm) :=
  ⟨_, _, rfl, rfl⟩

theorem OpcodeRow.fcEncStd (ctl : Byte) (data : Bytes) : OpcodeRow.Statement (.fcEncStd ctl data) :=
  ⟨_, _, rfl, rfl⟩

theorem OpcodeRow.fcDecStd (ctl : Byte) (nb : BitVec 16) (bits : Bytes) : OpcodeRow.Statement (.fcDecStd ctl nb bits) :=
  ⟨_, _, rfl, rfl⟩

theorem OpcodeRow.fcEnc4Bit (imm : Byte) : OpcodeRow.Statement (.fcEnc4Bit imm) :=
  ⟨_, _, rfl, rfl⟩

theorem OpcodeRow.fcDec4Bit (ctl : Byte) (nb : BitVec 16) (bits : Bytes) : OpcodeRow.Statement (.fcDec4Bit ctl nb bits) :=
  ⟨_, _, rfl, rfl⟩

theorem OpcodeRow.fcCrc (data : Bytes) : OpcodeRow.Statement (.fcCrc data) :=
  ⟨_, _, rfl, rfl⟩

theorem OpcodeRow.fcCrcCheck (data : Bytes) : OpcodeRow.Statement (.fcCrcCheck data) :=
  ⟨_, _, rfl, rfl⟩

theorem OpcodeRow.fcCrcInit : OpcodeRow.Statement .fcCrcInit :=
  ⟨_, _, rfl, rfl⟩

theorem OpcodeRow.fcCrcUpdate (imm : Byte) : OpcodeRow.Statement (.fcCrcUpdate imm) :=
  ⟨_, _, rfl, rfl⟩

theorem OpcodeRow.fcCrcRead : OpcodeRow.Statement .fcCrcRead :=
  ⟨_, _, rfl, rfl⟩

theorem OpcodeRow.c1Discard : OpcodeRow.Statement .c1Discard :=
  ⟨_, _, rfl, rfl⟩

theorem OpcodeRow.c1LoadKey (k0 : Byte) (k1 : Byte) (k2 : Byte) (k3 : Byte) (k4 : Byte) (k5 : Byte) : OpcodeRow.Statement (.c1LoadKey k0 k1 k2 k3 k4 k5) :=
  ⟨_, _, rfl, rfl⟩

theorem OpcodeRow.c1Peek : OpcodeRow.Statement .c1Peek :=
  ⟨_, _, rfl, rfl⟩

theorem OpcodeRow.c1ReadState : OpcodeRow.Statement .c1ReadState :=
  ⟨_, _, rfl, rfl⟩

theorem OpcodeRow.c1Bit (m : Bool) (imm : Byte) : OpcodeRow.Statement (.c1Bit m imm) :=
  ⟨_, _, rfl, by cases m <;> rfl⟩

theorem OpcodeRow.c1Nibble (m : Bool) (imm : Byte) : OpcodeRow.Statement (.c1Nibble m imm) :=
  ⟨_, _, rfl, by cases m <;> rfl⟩

theorem OpcodeRow.c1Byte (m : Bool) (imm : Byte) : OpcodeRow.Statement (.c1Byte m imm) :=
  ⟨_, _, rfl, by cases m <;> rfl⟩

theorem OpcodeRow.c1Word (m : Bool) (w0 : Byte) (w1 : Byte) (w2 : Byte) (w3 : Byte) : OpcodeRow.Statement (.c1Word m w0 w1 w2 w3) :=
  ⟨_, _, rfl, by cases m <;> rfl⟩

theorem OpcodeRow.c1EncByte (m : Bool) (imm : Byte) : OpcodeRow.Statement (.c1EncByte m imm) :=
  ⟨_, _, rfl, by cases m <;> rfl⟩

theorem OpcodeRow.c1DecByte (m : Bool) (imm : Byte) : OpcodeRow.Statement (.c1DecByte m imm) :=
  ⟨_, _, rfl, by cases m <;> rfl⟩

theorem OpcodeRow.cfEnc (m : Bool) (ctl : Byte) (data : Bytes) : OpcodeRow.Statement (.cfEnc m ctl data) :=
  ⟨_, _, rfl, by cases m <;> rfl⟩

theorem OpcodeRow.cfDec (m : Bool) (ctl : Byte) (nb : BitVec 16) (bits : Bytes) : OpcodeRow.Statement (.cfDec m ctl nb bits) :=
  ⟨_, _, rfl, by cases m <;> rfl⟩

theorem OpcodeRow.nhSuc (cnt : Byte) (x0 : Byte) (x1 : Byte) (x2 : Byte) (x3 : Byte) : OpcodeRow.Statement (.nhSuc cnt x0 x1 x2 x3) :=
  ⟨_, _, rfl, rfl⟩

end Sys2Proof.Laws
end

