-- ==== Sys2Proof/Tests/Slice0.lean ====
section
/-! SUPPORT. Small checks of the model. Every expected value comes from the spec: the encodings of 30_encoding.md, the examples of the
command rules, the vectors of 95_test_vectors.md. After them, for each obligation with hypotheses, values that meet them. -/

namespace Sys2Proof.Tests

-- The kernel evaluates these one after another: side by side, their stacks do not fit in memory.
set_option Elab.async false

open Sys2Proof.Machine Sys2Proof.Safety

/-- A state with a key loaded and this register; key A0 A1 A2 A3 A4 A5 is `0xA5A4A3A2A1A0` (R150). -/
def keyed (x : BitVec 48) : State :=
  { State.reset with lfsr := x, keyed := true }

/-- `s` with one command pending. -/
def holding (c : Bytes) (s : State) : State :=
  { s with pending := [c] }

/-- The state after one command. -/
def after (c : Bytes) (s : State) : Option State :=
  match step (holding c s) with
  | .next t => some t
  | .fault _ => none
  | .refused _ => none

/-- The response to one command. -/
def answer (c : Bytes) (s : State) : Option Bytes :=
  (after c s).bind fun t => t.responses.getLast?

/-- The response to one command and the register it leaves. -/
def answerAndRegister (c : Bytes) (s : State) : Option (Bytes × BitVec 48) :=
  (after c s).bind fun t => t.responses.getLast?.map fun r => (r, t.lfsr)

/-- The key of most examples, loaded. -/
def keyA : State := keyed 0xA5A4A3A2A1A0

/-! ### WellFormed refuses -/

theorem test_wellFormed_fcEncStd_length :
    (Instr.fcEncStd 0x00 (List.replicate 256 0)).wellFormed = false ∧
      (Instr.fcEncStd 0x00 (List.replicate 255 0)).wellFormed = true :=
  by decide +kernel

theorem test_wellFormed_fcCrc_length :
    (Instr.fcCrc (List.replicate 256 0)).wellFormed = false ∧ (Instr.fcCrc (List.replicate 255 0)).wellFormed = true :=
  by decide +kernel

theorem test_wellFormed_fcCrcCheck_length :
    (Instr.fcCrcCheck (List.replicate 256 0)).wellFormed = false ∧
      (Instr.fcCrcCheck (List.replicate 255 0)).wellFormed = true :=
  by decide +kernel

theorem test_wellFormed_cfEnc_length :
    (Instr.cfEnc false 0x00 (List.replicate 256 0)).wellFormed = false ∧
      (Instr.cfEnc false 0x00 (List.replicate 255 0)).wellFormed = true :=
  by decide +kernel

theorem test_wellFormed_fcDecStd_stream :
    (Instr.fcDecStd 0x00 9 [0x00]).wellFormed = false ∧ (Instr.fcDecStd 0x00 9 [0x00, 0x01, 0x02]).wellFormed = false ∧
      (Instr.fcDecStd 0x00 9 [0x00, 0x01]).wellFormed = true := by decide

theorem test_wellFormed_fcDec4Bit_stream :
    (Instr.fcDec4Bit 0x00 9 [0x00]).wellFormed = false ∧ (Instr.fcDec4Bit 0x00 9 [0x00, 0x01, 0x02]).wellFormed = false ∧
      (Instr.fcDec4Bit 0x00 9 [0x00, 0x01]).wellFormed = true := by decide

theorem test_wellFormed_cfDec_stream :
    (Instr.cfDec true 0x00 9 [0x00]).wellFormed = false ∧ (Instr.cfDec true 0x00 9 [0x00, 0x01, 0x02]).wellFormed = false ∧
      (Instr.cfDec true 0x00 9 [0x00, 0x01]).wellFormed = true := by decide

/-! ### Decoding: words written out from R61 and R66, one for each constructor -/

theorem test_decode_nop :
    decode [0x00] = .ok .nop := by decide

theorem test_decode_status :
    decode [0x01] = .ok .status := by decide

theorem test_decode_clearErr :
    decode [0x02] = .ok .clearErr := by decide

theorem test_decode_blockReset :
    decode [0x03] = .ok .blockReset := by decide

theorem test_decode_fcParity :
    decode [0x10, 0x81] = .ok (.fcParity 0x81) := by decide

theorem test_decode_fcEncShort :
    decode [0x11, 0x26] = .ok (.fcEncShort 0x26) := by decide

theorem test_decode_fcEncStd :
    decode [0x12, 0x01, 0x02, 0x50, 0x07] = .ok (.fcEncStd 0x01 [0x50, 0x07]) := by decide

theorem test_decode_fcDecStd :
    decode [0x13, 0x01, 0x24, 0x00, 0x30, 0x09, 0x98, 0x70, 0x0F] = .ok (.fcDecStd 0x01 36 [0x30, 0x09, 0x98, 0x70, 0x0F]) :=
  by decide +kernel

theorem test_decode_fcEnc4Bit :
    decode [0x14, 0x0A] = .ok (.fcEnc4Bit 0x0A) := by decide

theorem test_decode_fcDec4Bit :
    decode [0x15, 0x00, 0x04, 0x00, 0xFA] = .ok (.fcDec4Bit 0x00 4 [0xFA]) := by decide

theorem test_decode_fcCrc :
    decode [0x16, 0x02, 0x12, 0x34] = .ok (.fcCrc [0x12, 0x34]) := by decide

theorem test_decode_fcCrcCheck :
    decode [0x17, 0x04, 0x50, 0x00, 0x57, 0xCD] = .ok (.fcCrcCheck [0x50, 0x00, 0x57, 0xCD]) := by decide

theorem test_decode_fcCrcInit :
    decode [0x18] = .ok .fcCrcInit := by decide

theorem test_decode_fcCrcUpdate :
    decode [0x19, 0x12] = .ok (.fcCrcUpdate 0x12) := by decide

theorem test_decode_fcCrcRead :
    decode [0x1A] = .ok .fcCrcRead := by decide

theorem test_decode_c1Discard :
    decode [0x20] = .ok .c1Discard := by decide

theorem test_decode_c1LoadKey :
    decode [0x21, 0xA0, 0xA1, 0xA2, 0xA3, 0xA4, 0xA5] = .ok (.c1LoadKey 0xA0 0xA1 0xA2 0xA3 0xA4 0xA5) := by decide

theorem test_decode_c1Peek :
    decode [0x22] = .ok .c1Peek := by decide

theorem test_decode_c1ReadState :
    decode [0x23] = .ok .c1ReadState := by decide

theorem test_decode_c1Bit :
    decode [0x25, 0x01] = .ok (.c1Bit true 0x01) := by decide

theorem test_decode_c1Nibble :
    decode [0x26, 0x0A] = .ok (.c1Nibble false 0x0A) := by decide

theorem test_decode_c1Byte :
    decode [0x29, 0x5A] = .ok (.c1Byte true 0x5A) := by decide

theorem test_decode_c1Word :
    decode [0x2B, 0xA1, 0xE4, 0x58, 0xCE] = .ok (.c1Word true 0xA1 0xE4 0x58 0xCE) := by decide

theorem test_decode_c1EncByte :
    decode [0x2C, 0x30] = .ok (.c1EncByte false 0x30) := by decide

theorem test_decode_c1DecByte :
    decode [0x2F, 0x31] = .ok (.c1DecByte true 0x31) := by decide

theorem test_decode_cfEnc :
    decode [0x31, 0x00, 0x04, 0xEF, 0xEA, 0x1C, 0xDA] = .ok (.cfEnc true 0x00 [0xEF, 0xEA, 0x1C, 0xDA]) := by decide

theorem test_decode_cfDec :
    decode [0x32, 0x01, 0x1B, 0x00, 0x08, 0x6C, 0x75, 0x07] = .ok (.cfDec false 0x01 27 [0x08, 0x6C, 0x75, 0x07]) :=
  by decide

theorem test_decode_nhSuc :
    decode [0x40, 0x60, 0x82, 0xA4, 0x16, 0x6C] = .ok (.nhSuc 0x60 0x82 0xA4 0x16 0x6C) := by decide

/-- R202, R203: an empty buffer and an opcode outside the map; buffers too long or too short (sections 4.1, 4.2 of 95_test_vectors.md). -/
theorem test_decode_refuses :
    decode [] = .error .illegalOpcode ∧ decode [0x05] = .error .illegalOpcode ∧ decode [0x00, 0x00] = .error .length ∧
      decode [0x12, 0x00, 0x02, 0x00] = .error .length ∧
      decode [0x13, 0x00, 0x09, 0x00, 0x00, 0x01, 0x00] = .error .length :=
  by decide

/-- A table word's bytes, the first in the low bits; operand bytes the table gives no bits are 0. -/
theorem test_decodeTableWord :
    decodeTableWord 16 0x0A26 = some (.c1Nibble false 0x0A) ∧ decodeTableWord 8 0x21 = some (.c1LoadKey 0 0 0 0 0 0) ∧
      decodeTableWord 24 0x020012 = some (.fcEncStd 0x00 [0x00, 0x00]) := by decide

/-! ### Commands -/

/-- R100. -/
theorem test_nop :
    after [0x00] .reset = some { State.reset with responses := [[0x00]] } := by decide +kernel

/-- R29, R26: the record's bytes in order; bits 7:6 of `ERRSTICKY` read 0. -/
theorem test_status :
    answer [0x01] { keyed 0 with clkcnt := 304, errSticky := 0xFF, lastSt := 0x05 } =
      some [0x00, 0x01, 0x3F, 0x05, 0x30, 0x01, 0x00, 0x00] := by decide +kernel

/-- Section 4.1: a failing STATUS leaves `LASTST` alone. -/
theorem test_status_too_long :
    after [0x01, 0x00] State.reset = some { State.reset with errSticky := 0x04, responses := [[0x03]] } :=
  by decide +kernel

/-- Section 4.1. -/
theorem test_illegal_opcode :
    after [0x05] State.reset = some { State.reset with errSticky := 0x01, lastSt := 0x01, responses := [[0x01]] } :=
  by decide +kernel

/-- Section 4.1. -/
theorem test_clearErr :
    after [0x02] { State.reset with errSticky := 0x08, lastSt := 0x04 } = some { State.reset with responses := [[0x00]] } :=
  by decide +kernel

/-- R103, program P5. -/
theorem test_blockReset :
    after [0x03] { keyed 0x86 with clkcnt := 8, crcacc := 0x626D, errSticky := 0x08, lastSt := 0x04 } =
      some { State.reset with responses := [[0x00]] } := by decide +kernel

/-- Section 4.2: seven 1 bits. -/
theorem test_fcParity :
    answer [0x10, 0x7F] State.reset = some [0x00, 0x00] := by decide +kernel

theorem test_fcParity_even :
    answer [0x10, 0x03] State.reset = some [0x00, 0x01] := by decide +kernel

/-- Section 4.2: the buffer length is checked before the reserved bits. -/
theorem test_fcEncShort_reserved :
    answer [0x11, 0x80] .reset = some [0x02] ∧ answer [0x11, 0x80, 0x00] .reset = some [0x03] := by decide +kernel

/-- R112, both values of the parameter. -/
theorem test_fcEncShort :
    answer [0x11, 0x03] .reset =
      some (if Config.shortFrameParity then [0x00, 0x08, 0x00, 0x83] else [0x00, 0x07, 0x00, 0x03]) := by
  have h : answer [0x11, 0x03] .reset = some (0x00 :: stream (shortBits Config.shortFrameParity 0x03)) := rfl
  rw [h]
  cases Config.shortFrameParity <;> decide +kernel

/-- Section 4.2: READ block 4. -/
theorem test_fcEncStd :
    answer [0x12, 0x01, 0x02, 0x30, 0x04] State.reset = some [0x00, 0x24, 0x00, 0x30, 0x09, 0x98, 0x70, 0x0F] :=
  by decide +kernel

/-- Section 4.2: 31 + 2 > 32; reserved bits are checked before the range. -/
theorem test_fcEncStd_range :
    answer (0x12 :: 0x01 :: 0x1F :: List.replicate 31 0) .reset = some [0x03] ∧
      answer [0x12, 0x02, 0x00] .reset = some [0x02] :=
  by decide +kernel

/-- Section 4.2. -/
theorem test_fcDecStd :
    answer [0x13, 0x01, 0x24, 0x00, 0x30, 0x09, 0x98, 0x70, 0x0F] State.reset = some [0x00, 0x30, 0x04] :=
  by decide +kernel

/-- Section 4.2: PARITY, then CRC. -/
theorem test_fcDecStd_errors :
    answer [0x13, 0x01, 0x24, 0x00, 0x30, 0x08, 0x98, 0x70, 0x0F] .reset = some [0x05] ∧
      answer [0x13, 0x01, 0x24, 0x00, 0x31, 0x08, 0x98, 0x70, 0x0F] .reset = some [0x06] := by decide +kernel

/-- Section 4.2. -/
theorem test_fcEnc4Bit :
    answer [0x14, 0x0A] State.reset = some [0x00, 0x04, 0x00, 0x0A] := by decide +kernel

/-- Section 4.2: padding bits ignored. -/
theorem test_fcDec4Bit :
    answer [0x15, 0x00, 0x04, 0x00, 0xFA] State.reset = some [0x00, 0x0A] := by decide +kernel

theorem test_fcDec4Bit_count :
    answer [0x15, 0x00, 0x05, 0x00, 0x0A] State.reset = some [0x03] := by decide +kernel

/-- Section 3, the second example of the standard. -/
theorem test_fcCrc :
    answer [0x16, 0x02, 0x12, 0x34] State.reset = some [0x00, 0x26, 0xCF] := by decide +kernel

/-- Section 4.2, section 3. -/
theorem test_fcCrc_range :
    answer (0x16 :: 0x21 :: List.replicate 33 0) .reset = some [0x03] ∧
      answer [0x16, 0x00] .reset = some [0x00, 0x63, 0x63] :=
  by decide +kernel

/-- R122. -/
theorem test_fcCrcCheck :
    answer [0x17, 0x04, 0x50, 0x00, 0x57, 0xCD] State.reset = some [0x00, 0x01] := by decide +kernel

/-- Section 3. -/
theorem test_fcCrcCheck_wrong :
    answer [0x17, 0x04, 0x50, 0x00, 0x56, 0xCD] State.reset = some [0x00, 0x00] := by decide +kernel

/-- R127. -/
theorem test_fcCrcInit :
    (after [0x18] { State.reset with crcacc := 0xCF26 }).map State.crcacc = some 0x6363 := by decide +kernel

/-- Program P5: FC_CRC_READ then returns 6D 62. -/
theorem test_fcCrcUpdate :
    (after [0x19, 0x12] .reset).map State.crcacc = some 0x626D := by decide +kernel

/-- R129. -/
theorem test_fcCrcRead :
    answer [0x1A] { State.reset with crcacc := 0xCF26 } = some [0x00, 0x26, 0xCF] := by decide +kernel

/-- R151. -/
theorem test_c1Discard :
    after [0x20] { keyA with clkcnt := 8 } = some { State.reset with responses := [[0x00]] } := by decide +kernel

/-- R150. -/
theorem test_c1LoadKey :
    after [0x21, 0xA0, 0xA1, 0xA2, 0xA3, 0xA4, 0xA5] { keyed 5 with clkcnt := 7 } = some { keyA with responses := [[0x00]] } :=
  by decide +kernel

/-- R152. -/
theorem test_c1Peek :
    answer [0x22] (keyed 0xFFFFFFFFFFFF) = some [0x00, 0x01] := by decide +kernel

/-- Program P5. -/
theorem test_c1Peek_unkeyed :
    answer [0x22] State.reset = some [0x04] := by decide +kernel

/-- Trace T1. -/
theorem test_c1ReadState :
    answer [0x23] (keyed 0x8ECA0D0BEEF5) = some [0x00, 0xF5, 0xEE, 0x0B, 0x0D, 0xCA, 0x8E] := by decide +kernel

/-- R154. -/
theorem test_c1Bit :
    answerAndRegister [0x24, 0x01] keyA = some ([0x00, 0x00], 0xD2D251D150D0) := by decide +kernel

/-- Program P5: RESERVED before NOT_KEYED. -/
theorem test_c1Bit_reserved :
    answer [0x24, 0x02] .reset = some [0x02] ∧ answer [0x24, 0x00] .reset = some [0x04] := by decide +kernel

/-- R155. -/
theorem test_c1Nibble :
    answerAndRegister [0x26, 0x0A] keyA = some ([0x00, 0x00], 0xCA5A4A3A2A1A) := by decide +kernel

/-- R156. -/
theorem test_c1Byte_plain :
    answerAndRegister [0x28, 0x00] keyA = some ([0x00, 0x70], 0x86A5A4A3A2A1) := by decide +kernel

/-- R156. -/
theorem test_c1Byte_encrypted :
    answerAndRegister [0x29, 0x5A] keyA = some ([0x00, 0x30], 0x2CA5A4A3A2A1) := by decide +kernel

/-- R157, trace T1. -/
theorem test_c1Word_plain :
    answerAndRegister [0x2A, 0x1E, 0xFD, 0x8D, 0x5E] (keyed 0xFFFFFFFFFFFF) = some ([0x00, 0xFF, 0x77, 0xFF, 0x5A], 0x3D39DFFEFFFF) :=
  by decide +kernel

/-- Trace T1. -/
theorem test_c1Word_encrypted :
    answer [0x2B, 0xA1, 0xE4, 0x58, 0xCE] (keyed 0x3D39DFFEFFFF) = some [0x00, 0x4E, 0x0E, 0x44, 0x14] :=
  by decide +kernel

/-- R158. -/
theorem test_c1EncByte_plain :
    answerAndRegister [0x2C, 0x30] keyA = some ([0x00, 0x40, 0x70], 0x86A5A4A3A2A1) := by decide +kernel

/-- R158. -/
theorem test_c1EncByte_feedback :
    answerAndRegister [0x2D, 0x30] keyA = some ([0x00, 0x40, 0x70], 0xB6A5A4A3A2A1) := by decide +kernel

/-- R159. -/
theorem test_c1DecByte_plain :
    answer [0x2E, 0x30] keyA = some [0x00, 0x40, 0x70] := by decide +kernel

/-- R159. -/
theorem test_c1DecByte_feedback :
    answerAndRegister [0x2F, 0x30] keyA = some ([0x00, 0x40, 0x70], 0xC6A5A4A3A2A1) := by decide +kernel

/-- R182. -/
theorem test_cfEnc_feedback :
    answer [0x31, 0x00, 0x04, 0xEF, 0xEA, 0x1C, 0xDA] (keyed 0x3D39DFFEFFFF) = some [0x00, 0x24, 0x00, 0xA1, 0xC8, 0x61, 0x71, 0x0E] :=
  by decide +kernel

/-- Program P3. -/
theorem test_cfEnc_crc :
    answer [0x30, 0x01, 0x02, 0x30, 0x04] (keyed 0x8ECA0D0BEEF5) = some [0x00, 0x24, 0x00, 0xDE, 0x15, 0x38, 0x62, 0x01] :=
  by decide +kernel

/-- Program P3. -/
theorem test_cfDec_crc :
    answer [0x32, 0x01, 0x24, 0x00, 0xDE, 0x15, 0x38, 0x62, 0x01] (keyed 0x8ECA0D0BEEF5) = some [0x00, 0x30, 0x04] :=
  by decide +kernel

/-- R185; the frame of program P6 under another key's register. -/
theorem test_cfDec_discards :
    after [0x33, 0x00, 0x24, 0x00, 0xA1, 0xC8, 0x61, 0x71, 0x0E] { keyed 0xA5A4A3A2A1A0 with clkcnt := 32 } =
      some { State.reset with errSticky := 0x10, lastSt := 0x05, responses := [[0x05]] } := by decide +kernel

/-- R191. -/
theorem test_nhSuc :
    answer [0x40, 0x40, 0x82, 0xA4, 0x16, 0x6C] State.reset = some [0x00, 0x8D, 0x65, 0x73, 0x4B] := by decide +kernel

/-- The vectors of 44_nonce_helper.md. -/
theorem test_nhSuc_byte :
    answer [0x40, 0x08, 0x01, 0x02, 0x03, 0x04] State.reset = some [0x00, 0x02, 0x03, 0x04, 0xA3] := by decide +kernel

/-- A table word runs as the first command after reset. -/
theorem test_withFetchWord :
    step (State.reset.withFetchWord 8 0x00) = .next (endedOk [] .reset) := rfl

/-! ### Values that meet the hypotheses of the obligations -/

theorem witness_DecodeOfEncode :
    (Instr.cfEnc true 0x01 (List.replicate 255 0xFF)).wellFormed = true ∧ (Instr.cfDec true 0xFF 0 []).wellFormed = true :=
  by decide +kernel

theorem witness_EncodeOfDecode :
    decode [0x40, 0xFF, 0x82, 0xA4, 0x16, 0x6C] = .ok (.nhSuc 0xFF 0x82 0xA4 0x16 0x6C) ∧
      decode [0x32, 0x00, 0x00, 0x00] = .ok (.cfDec false 0x00 0 []) := by decide +kernel

theorem witness_IllegalOpcodesFail :
    illegalOpcode 0x04 ∧ illegalOpcode 0x0F ∧ illegalOpcode 0x1B ∧ illegalOpcode 0x1F ∧ illegalOpcode 0x34 ∧
      illegalOpcode 0x3F ∧ illegalOpcode 0x41 ∧ illegalOpcode (0xFF : Byte).toNat ∧
      (holding [0xFF] .reset).pending = [[0xFF]] := by
  simp [illegalOpcode, holding]

theorem witness_StepRunsDecoded :
    (holding [0x26, 0x0A] keyA).pending = [0x26, 0x0A] :: [] ∧ decode [0x26, 0x0A] = .ok (.c1Nibble false 0x0A) :=
  by decide +kernel

theorem witness_IdleBlockKeepsState :
    keyA.pending = [] := by decide +kernel

theorem witness_OneResponsePerCommand :
    (holding [] .reset).pending = [] :: [] ∧ (holding [0x00] keyA).pending = [0x00] :: [] := by decide +kernel

/-- Every outcome of the checks is met by some buffer. -/
theorem witness_ChecksInOrder :
    checkedStatus [] true = some 0x01 ∧ checkedStatus [0x34, 0xFF] true = some 0x01 ∧
      checkedStatus [0x24, 0xFF, 0x00] false = some 0x03 ∧
      checkedStatus [0x30, 0x02, 0x00] false = some 0x02 ∧ checkedStatus [0x30, 0x00, 0x00] false = some 0x03 ∧
      checkedStatus [0x30, 0x00, 0x01, 0x00] false = some 0x04 ∧ checkedStatus [0x30, 0x00, 0x01, 0x00] true = none ∧
      (holding [0x30, 0x00, 0x01, 0x00] keyA).pending = [0x30, 0x00, 0x01, 0x00] :: [] := by decide +kernel

theorem witness_Epilogue :
    (∃ t, step (holding [0x01, 0x00] keyA) = .next t) ∧ (∃ t, step (holding [] keyA) = .next t) ∧
      ∃ t, step (holding [0x22] .reset) = .next t := ⟨⟨_, rfl⟩, ⟨_, rfl⟩, ⟨_, rfl⟩⟩

/-- CF_DEC ending with PARITY and with CRC, and a failure of another command. -/
theorem witness_FailureFrame :
    answer [0x32, 0x00, 0x09, 0x00, 0x00, 0x00] (keyed 0) = some [Status.parity.code] ∧
      answer [0x32, 0x01, 0x1B, 0x00, 0x00, 0x01, 0x02, 0x04] (keyed 0) = some [Status.crc.code] ∧
      answer [0x13, 0x00, 0x09, 0x00, 0x00, 0x00] (keyed 0) = some [Status.parity.code] := by decide +kernel

theorem witness_RegisterWriters :
    (∃ t, exec (.fcCrcUpdate 0x12) keyA = .next t) ∧ writesCipher (.fcCrcUpdate 0x12) = false ∧
      writesKeyed (.fcCrcUpdate 0x12) = false ∧
      writesKeyed (.c1Byte true 0x00) = false ∧ ∃ t, exec .status keyA = .next t := ⟨⟨_, rfl⟩, rfl, rfl, rfl, ⟨_, rfl⟩⟩

theorem witness_StepKeepsInv :
    Inv { keyed 5 with errSticky := 0x3F, lastSt := 6, pending := [[0x03]] } ∧ Inv State.reset ∧
      (after [0x03] { keyed 5 with errSticky := 0x3F, lastSt := 6 }).isSome = true := by decide +kernel

theorem witness_ReadsRepeat :
    keyA.keyed = true ∧ (∃ t, exec .c1Peek keyA = .next t) := ⟨rfl, ⟨_, rfl⟩⟩

theorem witness_StatusResult :
    (holding [0x01, 0x00] keyA).pending = (0x01 :: 0x00 :: []) :: [] := by decide +kernel

theorem witness_ClearErrResult :
    (holding [0x02, 0x00] keyA).pending = (0x02 :: 0x00 :: []) :: [] := by decide +kernel

theorem witness_StdBitsLayout :
    ([0x26] : Bytes)[0]? = some 0x26 ∧ ([0x93, 0x20] : Bytes)[1]? = some 0x20 := by decide +kernel

/-- The longest frame; streams that differ in their padding alone. -/
theorem witness_StreamPacking :
    (List.replicate 288 true).length < 65536 ∧ unpackBits 4 [0xFA] = unpackBits 4 [0x0A] := by decide +kernel

theorem witness_StdFrameRoundTrip :
    1 ≤ (List.replicate 30 (0 : Byte)).length ∧ (List.replicate 30 (0 : Byte)).length ≤ 30 ∧ 1 ≤ ([0x08] : Bytes).length :=
  by decide +kernel

theorem witness_FcDec4BitResult :
    (0x01 : Byte) ≠ 0 ∧ (3 : BitVec 16) ≠ 4 ∧ (5 : BitVec 16) ≠ 4 := by decide +kernel

theorem witness_FcCrcCheckResult :
    (List.replicate 31 (0 : Byte)).length > 30 ∧ (List.replicate 30 (0 : Byte)).length ≤ 30 := by decide +kernel

theorem witness_CrcResidue :
    2 ≤ ([0x63, 0x63] : Bytes).length ∧ crcOk [0x63, 0x63] = true ∧ crcOk [0x63, 0x62] = false := by decide +kernel

theorem witness_CrcDetectsSingleBit :
    2 ≤ ([0x50, 0x00, 0x57, 0xCD] : Bytes).length ∧ crcOk [0x50, 0x00, 0x57, 0xCD] = true ∧
      ([0x50, 0x00, 0x57, 0xCD] : Bytes)[3]? = some 0xCD := by decide +kernel

theorem witness_FilterReadsOddCells :
    (0xAAAAAAAAAA00 : BitVec 48).getLsbD 9 = true ∧ (0xAAAAAAAAAA00 : BitVec 48).getLsbD 47 = true ∧
      (0xAAAAAAAAAA00 : BitVec 48).getLsbD 7 = false ∧ filter (0#48 ^^^ (1#48 <<< 9)) ≠ filter 0#48 := by decide +kernel

theorem witness_ClockProperties :
    keyA.lfsr = { keyA with clkcnt := 9 }.lfsr ∧ (keyed 0).lfsr = 0 ∧
      (clock true true keyA).2 = (clock true true keyA).2 := ⟨rfl, rfl, rfl⟩

theorem witness_LoadKeyResult :
    keyA.lfsr = 0xA5A4A3A2A1A0 ∧ State.reset.lfsr = 0 := by decide +kernel

theorem witness_DiscardResult :
    State.reset.keyed = false := by decide +kernel

theorem witness_PeekResult :
    State.reset.keyed = false ∧ keyA.keyed = true := by decide +kernel

/-- Both values of the keystream bit (the examples of R152). -/
theorem witness_BitResult :
    filter keyA.lfsr = false ∧ filter (0xFFFFFFFFFFFF : BitVec 48) = true := by decide +kernel

theorem witness_NibbleIsFourBits :
    keyA.keyed = true ∧ (0x0F : Byte) &&& 0xF0 = 0 := by decide +kernel

theorem witness_ByteIsEightBits :
    keyA.keyed = true := by decide +kernel

theorem witness_WordIsFourBytes :
    keyA.keyed = true := by decide +kernel

theorem witness_EncDecByteAreByteClocks :
    keyA.keyed = true := by decide +kernel

theorem witness_DecByteUndoesEncByte :
    keyA.keyed = true ∧ { keyA with clkcnt := 9 }.keyed = true ∧ keyA.lfsr = { keyA with clkcnt := 9 }.lfsr :=
  by decide +kernel

theorem witness_CfEncResult :
    (0x01 : Byte) &&& 0xFE = 0 ∧ 1 ≤ (List.replicate 30 (0 : Byte)).length ∧
      (List.replicate 30 (0 : Byte)).length + (if (0x01 : Byte).getLsbD 0 then 2 else 0) ≤ 32 ∧ keyA.keyed = true :=
  by decide +kernel

theorem witness_CfEncFromPrimitives :
    1 ≤ (List.replicate 32 (0 : Byte)).length ∧ (List.replicate 32 (0 : Byte)).length ≤ 32 ∧ keyA.keyed = true :=
  by decide +kernel

theorem witness_CfEncCrcOverPlaintext :
    1 ≤ (List.replicate 30 (0 : Byte)).length ∧ (List.replicate 30 (0 : Byte)).length ≤ 30 := by decide +kernel

theorem witness_SplittingLaw :
    keyA.keyed = true ∧ 1 ≤ ([0x00] : Bytes).length ∧ 1 ≤ (List.replicate 31 (0 : Byte)).length ∧
      ([0x00] : Bytes).length + (List.replicate 31 (0 : Byte)).length ≤ 32 := by decide +kernel

theorem witness_EncryptedRoundTrip :
    keyA.keyed = true ∧ { keyA with clkcnt := 9 }.keyed = true ∧ keyA.lfsr = { keyA with clkcnt := 9 }.lfsr ∧
      1 ≤ (List.replicate 30 (0 : Byte)).length ∧ (List.replicate 30 (0 : Byte)).length + (if true then 2 else 0) ≤ 32 ∧
      (List.replicate 32 (0 : Byte)).length + (if false then 2 else 0) ≤ 32 := by decide +kernel

theorem witness_CfDecResult :
    (0x01 : Byte) &&& 0xFE = 0 ∧ (288 : BitVec 16).toNat % 9 = 0 ∧ 1 ≤ (288 : BitVec 16).toNat / 9 ∧
      (288 : BitVec 16).toNat / 9 ≤ 32 ∧
      ((0x01 : Byte).getLsbD 0 = true → 3 ≤ (288 : BitVec 16).toNat / 9) ∧ keyA.keyed = true := by decide +kernel

theorem witness_CfDecResult_shortest :
    (0x01 : Byte) &&& 0xFE = 0 ∧ (27 : BitVec 16).toNat % 9 = 0 ∧ 1 ≤ (27 : BitVec 16).toNat / 9 ∧
      (27 : BitVec 16).toNat / 9 ≤ 32 ∧
      ((0x01 : Byte).getLsbD 0 = true → 3 ≤ (27 : BitVec 16).toNat / 9) ∧ keyA.keyed = true := by decide +kernel

theorem witness_SucProperties :
    16 ≤ 16 := by decide +kernel

end Sys2Proof.Tests
end

/-! SUPPORT. The state family (10_state.md): what a command may have written before its epilogue, what the epilogue keeps, and
the four statements settled from that. -/

namespace Sys2Proof.Machine

open Sys2Proof.Safety

/-! ### The effect of a command before its epilogue -/

/-- The states `x` that the command `i`, begun in `s`, may hand to its epilogue, whatever its status (R20). A clocking command
is known by its column alone: how far it clocks does not matter here. -/
inductive Effect (s : State) : Instr → State → Prop
  | unchanged (i : Instr) : Effect s i s
  | clearErr : Effect s .clearErr { s with errSticky := 0x00 }
  | blockReset : Effect s .blockReset
      { s with lfsr := 0, keyed := false, clkcnt := 0, crcacc := crcInit, errSticky := 0x00 }
  | crcInit : Effect s .fcCrcInit { s with crcacc := crcInit }
  | crcUpdate (b : Byte) : Effect s (.fcCrcUpdate b) { s with crcacc := crcStep s.crcacc b }
  | loadKey (k0 k1 k2 k3 k4 k5 : Byte) : Effect s (.c1LoadKey k0 k1 k2 k3 k4 k5)
      { s with lfsr := keyRegister k0 k1 k2 k3 k4 k5, keyed := true, clkcnt := 0 }
  | discard : Effect s .c1Discard (discard s)
  | decryptFailed (m : Bool) (ctl : Byte) (nb : BitVec 16) (bits : Bytes) : Effect s (.cfDec m ctl nb bits) (discard s)
  | clocked {i : Instr} {n : Nat} {x : State} (hw : writesCipher i = true) (hk : s.keyed = true)
      (hx : ClockedBy n s x) : Effect s i x

theorem OkEffect.effect {i : Instr} {s x : State} (h : OkEffect s x i) : Effect s i x := by
  cases i with
  | clearErr => obtain rfl := h; exact .clearErr
  | blockReset => obtain rfl := h; exact .blockReset
  | fcCrcInit => obtain rfl := h; exact .crcInit
  | fcCrcUpdate b => obtain rfl := h; exact .crcUpdate b
  | c1Discard => obtain rfl := h; exact .discard
  | c1LoadKey => obtain rfl := h; exact .loadKey ..
  | c1Bit | c1Nibble | c1Byte | c1Word | c1EncByte | c1DecByte | cfEnc | cfDec =>
    obtain ⟨hk, n, hx⟩ := h
    exact .clocked rfl hk hx
  | nop | status | fcParity | fcEncShort | fcEncStd | fcDecStd | fcEnc4Bit | fcDec4Bit | fcCrc | fcCrcCheck | fcCrcRead
  | c1Peek | c1ReadState | nhSuc =>
    obtain rfl := h
    exact .unchanged _

theorem FailEffect.effect {i : Instr} {st : Status} {s x : State} (h : FailEffect st s x i) : Effect s i x := by
  unfold FailEffect at h
  split at h
  · split at h <;> subst h
    · exact .decryptFailed ..
    · exact .unchanged _
  · subst h
    exact .unchanged _

/-- What `exec` leaves is the epilogue of some status on one of the effects of its command. -/
theorem exec_next_effect {i : Instr} {s t : State} (h : exec i s = .next t) :
    ∃ (st : Status) (p : Bytes) (x : State), t = endCommand (skipsLastSt i) st p x ∧ Effect s i x := by
  obtain ⟨st, p, x, hr, hfail, hok⟩ := exec_ends i s
  refine ⟨st, p, x, Host.Outcome.next.inj (h.symm.trans hr), ?_⟩
  by_cases hst : st = .ok
  · exact (hok hst).effect
  · exact (hfail hst).2.effect

/-! ### What an effect leaves alone, register by register (R20) -/

section EffectFrame

variable {i : Instr} {s x : State} (h : Effect s i x)
include h

theorem Effect.cipher (hi : writesCipher i = false) : x.lfsr = s.lfsr ∧ x.clkcnt = s.clkcnt := by
  cases h with
  | unchanged | clearErr | crcInit | crcUpdate => exact ⟨rfl, rfl⟩
  | blockReset | loadKey | discard | decryptFailed => cases hi
  | clocked hw => simp [hw] at hi

theorem Effect.keyed (hi : writesKeyed i = false) : x.keyed = s.keyed := by
  cases h with
  | unchanged | clearErr | crcInit | crcUpdate => rfl
  | blockReset | loadKey | discard | decryptFailed => cases hi
  | clocked _ _ hx => exact hx.keyed

theorem Effect.crcacc (hinit : i ≠ .fcCrcInit) (hupdate : ∀ b, i ≠ .fcCrcUpdate b) (hreset : i ≠ .blockReset) :
    x.crcacc = s.crcacc := by
  cases h with
  | unchanged | clearErr | loadKey | discard | decryptFailed => rfl
  | blockReset => exact absurd rfl hreset
  | crcInit => exact absurd rfl hinit
  | crcUpdate b => exact absurd rfl (hupdate b)
  | clocked _ _ hx => exact hx.crcacc

theorem Effect.sticky (hclear : i ≠ .clearErr) (hreset : i ≠ .blockReset) : x.sticky = s.sticky := by
  cases h with
  | unchanged | crcInit | crcUpdate | loadKey | discard | decryptFailed => rfl
  | clearErr => exact absurd rfl hclear
  | blockReset => exact absurd rfl hreset
  | clocked _ _ hx => exact hx.sticky

theorem Effect.lastSt : x.lastSt = s.lastSt := by
  cases h with
  | clocked _ _ hx => exact hx.lastSt
  | unchanged | clearErr | blockReset | crcInit | crcUpdate | loadKey | discard | decryptFailed => rfl

theorem Effect.pending : x.pending = s.pending := by
  cases h with
  | clocked _ _ hx => exact hx.pending
  | unchanged | clearErr | blockReset | crcInit | crcUpdate | loadKey | discard | decryptFailed => rfl

/-- U19: whatever takes the key away clears the cipher registers, and nothing clocks them without a key. -/
theorem Effect.keeps_inv (hs : Inv s) : Inv x := by
  obtain ⟨hcipher, hsticky, hlast⟩ := hs
  cases h with
  | unchanged | crcInit | crcUpdate => exact ⟨hcipher, hsticky, hlast⟩
  | clearErr => exact ⟨hcipher, BitVec.zero_and, hlast⟩
  | blockReset => exact ⟨fun _ => ⟨rfl, rfl⟩, BitVec.zero_and, hlast⟩
  | loadKey => exact ⟨nofun, hsticky, hlast⟩
  | discard | decryptFailed => exact ⟨fun _ => ⟨rfl, rfl⟩, hsticky, hlast⟩
  | clocked _ hk hx =>
    refine ⟨fun hu => ?_, by rwa [hx.errSticky], by rwa [hx.lastSt]⟩
    rw [hx.keyed, hk] at hu
    cases hu

end EffectFrame

/-! ### What the epilogue keeps (R26, R200, R206) -/

theorem code_toNat_le (st : Status) : st.code.toNat ≤ 6 := by
  cases st <;> decide

/-- A status sets none of the two hardwired bits of `ERRSTICKY`. -/
theorem stickyBit_hardwired (st : Status) : st.stickyBit &&& 0xC0 = 0 := by
  cases st <;> rfl

theorem sticky_hardwired (s : State) : s.sticky &&& 0xC0 = 0 := by
  rw [State.sticky, BitVec.and_assoc]
  exact BitVec.and_zero

theorem stickyAfter_hardwired (st : Status) {s : State} (h : s.errSticky &&& 0xC0 = 0) :
    stickyAfter st s &&& 0xC0 = 0 := by
  by_cases hst : st = .ok
  · subst hst
    exact h
  · rw [stickyAfter_of_ne_ok hst, BitVec.and_or_distrib_right, sticky_hardwired, stickyBit_hardwired]
    rfl

theorem lastStAfter_toNat_le (b : Bool) (st : Status) {s : State} (h : s.lastSt.toNat ≤ 6) :
    (lastStAfter b st s).toNat ≤ 6 := by
  cases b
  · exact code_toNat_le st
  · exact h

theorem endCommand_keeps_inv (b : Bool) (st : Status) (p : Bytes) {s : State} (h : Inv s) :
    Inv (endCommand b st p s) := by
  obtain ⟨hcipher, hsticky, hlast⟩ := h
  exact ⟨hcipher, stickyAfter_hardwired st hsticky, lastStAfter_toNat_le b st hlast⟩

/-- R26: the epilogue clears no bit of `ERRSTICKY`. -/
theorem endCommand_sticky_mono (b : Bool) (st : Status) (p : Bytes) (s : State) :
    (endCommand b st p s).sticky &&& s.sticky = s.sticky := by
  rw [State.sticky, endCommand_errSticky]
  by_cases hst : st = .ok
  · subst hst
    exact BitVec.and_self
  · rw [stickyAfter_of_ne_ok hst, State.sticky]
    ext k
    simp only [BitVec.getElem_and, BitVec.getElem_or]
    cases s.errSticky[k] <;> cases (0x3F : Byte)[k] <;> simp

/-! ### Steps -/

theorem exec_keeps_inv {i : Instr} {s t : State} (hs : Inv s) (h : exec i s = .next t) : Inv t := by
  obtain ⟨st, p, x, rfl, hx⟩ := exec_next_effect h
  exact endCommand_keeps_inv _ st p (hx.keeps_inv hs)

/-- A buffer that holds no command runs the epilogue alone (R202, R203). -/
theorem execCommand_of_error {c : Bytes} {e : DecodeError} (h : decode c = .error e) (s : State) :
    execCommand c s = .next (endCommand (isStatusCommand c) (errorStatus e) [] s) := by
  simp [execCommand, h]

theorem execCommand_of_ok {c : Bytes} {i : Instr} (h : decode c = .ok i) (s : State) : execCommand c s = exec i s := by
  simp [execCommand, h]

theorem step_of_idle {s : State} (h : s.pending = []) : step s = .next s := by
  simp [step, h]

theorem execCommand_keeps_inv {c : Bytes} {s t : State} (hs : Inv s) (h : execCommand c s = .next t) : Inv t := by
  cases hd : decode c with
  | ok i =>
    rw [execCommand_of_ok hd] at h
    exact exec_keeps_inv hs h
  | error e =>
    rw [execCommand_of_error hd] at h
    cases h
    exact endCommand_keeps_inv _ _ _ hs

/-- Settles O12: an idle step keeps the state, and a command's effect and its epilogue each keep the invariant, which does not
speak of the pending commands. -/
theorem stepKeepsInv : Obligations.StepKeepsInv := by
  intro s t hs h
  cases hp : s.pending with
  | nil =>
    rw [step_of_idle hp] at h
    cases h
    exact hs
  | cons c rest =>
    rw [step_of_pending hp] at h
    exact execCommand_keeps_inv (s := { s with pending := rest }) hs h

/-- Settles O11: each register is left alone by the effects outside its column, and the epilogue writes `LASTST` and sets bits
of `ERRSTICKY` alone. -/
theorem registerWriters : Obligations.RegisterWriters := by
  intro i s t h
  obtain ⟨st, p, x, rfl, hx⟩ := exec_next_effect h
  refine ⟨hx.cipher, hx.keyed, hx.crcacc, fun hclear hreset => ?_, ?_, hx.pending⟩
  · rw [← hx.sticky hclear hreset]
    exact endCommand_sticky_mono _ st p x
  · rintro rfl
    exact hx.lastSt

/-! ### The incremental CRC (R127 to R129) -/

/-- A command that responds ends OK and writes no register but what it wrote before. -/
theorem respond_endedOk (p : Bytes) (s : State) : respond p s = .next (endedOk p s) := rfl

@[simp] theorem endedOk_crcacc (p : Bytes) (s : State) : (endedOk p s).crcacc = s.crcacc := rfl
@[simp] theorem endedOk_responses (p : Bytes) (s : State) :
    (endedOk p s).responses = s.responses ++ [0x00 :: p] := rfl

theorem exec_fcCrcInit (s : State) : exec .fcCrcInit s = .next (endedOk [] { s with crcacc := crcInit }) := rfl
theorem exec_fcCrcUpdate (b : Byte) (s : State) :
    exec (.fcCrcUpdate b) s = .next (endedOk [] { s with crcacc := crcStep s.crcacc b }) := rfl
theorem exec_fcCrcRead (s : State) : exec .fcCrcRead s = .next (endedOk (u16Bytes s.crcacc) s) := rfl

theorem execAll_cons_of_next {i : Instr} {s u : State} (h : exec i s = .next u) (is : List Instr) :
    execAll (i :: is) s = execAll is u := by
  simp [execAll, h]

/-- Commands in a row run one part after the other. -/
theorem execAll_append_of_some {is : List Instr} {s u : State} (h : execAll is s = some u) (js : List Instr) :
    execAll (is ++ js) s = execAll js u := by
  induction is generalizing s with
  | nil => cases h; rfl
  | cons i is ih =>
    cases he : exec i s with
    | next v =>
      rw [execAll_cons_of_next he] at h
      rw [List.cons_append, execAll_cons_of_next he, ih h]
    | fault r => simp [execAll, he] at h
    | refused r => simp [execAll, he] at h

/-- FC_CRC_UPDATE on each byte of a string folds the string into the accumulator, and each one answers OK. -/
theorem execAll_fcCrcUpdate (d : Bytes) (s : State) :
    ∃ u : State, execAll (d.map .fcCrcUpdate) s = some u ∧ u.crcacc = d.foldl crcStep s.crcacc ∧
      u.responses = s.responses ++ List.replicate d.length [0x00] := by
  induction d generalizing s with
  | nil => exact ⟨s, rfl, rfl, by simp⟩
  | cons b d ih =>
    obtain ⟨u, hu, hcrc, hresp⟩ := ih (endedOk [] { s with crcacc := crcStep s.crcacc b })
    refine ⟨u, ?_, hcrc, ?_⟩
    · rw [List.map_cons, execAll_cons_of_next (exec_fcCrcUpdate b s), hu]
    · simp [hresp, List.replicate_succ]

/-- Settles O34: INIT starts the fold of `crcA`, the updates carry it out, READ returns it. -/
theorem incrementalCrcAgrees : Obligations.IncrementalCrcAgrees := by
  intro d s
  obtain ⟨u, hu, hcrc, hresp⟩ := execAll_fcCrcUpdate d (endedOk [] { s with crcacc := crcInit })
  have hcrcA : u.crcacc = crcA d := hcrc
  refine ⟨endedOk (u16Bytes u.crcacc) u, ?_, ?_⟩
  · rw [execAll_cons_of_next (exec_fcCrcInit s), execAll_append_of_some hu, execAll_cons_of_next (exec_fcCrcRead u)]
    rfl
  · simp [hresp, hcrcA, u16Bytes, List.replicate_succ]

/-! ### STATUS (R29, R101) -/

theorem bitByte_eq_ite (b : Bool) : bitByte b = if b then 0x01 else 0x00 := by
  cases b <;> rfl

theorem exec_status (s : State) :
    exec .status s = .next { s with responses := s.responses ++ [0x00 :: statusRecord s] } := rfl

/-- The status record of R29, byte for byte. -/
theorem statusRecord_eq (s : State) :
    statusRecord s = [if s.keyed then 0x01 else 0x00, s.sticky, s.lastSt, s.clkcnt.extractLsb' 0 8,
      s.clkcnt.extractLsb' 8 8, s.clkcnt.extractLsb' 16 8, s.clkcnt.extractLsb' 24 8] := by
  simp [statusRecord, bitByte_eq_ite, u32Bytes]

/-- STATUS has format A: any operand byte makes its length wrong (R61). -/
theorem decode_status_operands (x : Byte) (xs : Bytes) : decode (0x01 :: x :: xs) = .error .length := rfl

theorem isStatusCommand_status (xs : Bytes) : isStatusCommand (0x01 :: xs) = true := rfl

/-- Settles O16: the success case is the status record; with operands the epilogue of a STATUS that ends with LENGTH runs. -/
theorem statusResult : Obligations.StatusResult := by
  refine ⟨rfl, fun s => ?_, fun s x xs rest hp => ?_⟩
  · rw [exec_status, statusRecord_eq]
  · rw [step_of_pending hp, execCommand_of_error (decode_status_operands x xs), isStatusCommand_status]
    rfl

end Sys2Proof.Machine

/-! SUPPORT. The memory family (20_memory.md): the order in which submitted commands run, the commands that read and repeat, and
the packing of bit streams. -/

namespace Sys2Proof.Machine

open Sys2Proof.Safety

/-! ### Submission order (R54, R73) -/

/-- Settles O5: the step takes the oldest buffer off the list, and a buffer that decodes runs as its command. -/
theorem stepRunsDecoded : Obligations.StepRunsDecoded := by
  intro s c rest i hp hd
  rw [step_of_pending hp, execCommand_of_ok hd]

/-! ### The reading commands (R51) -/

theorem exec_c1ReadState (s : State) : exec .c1ReadState s = .next (endedOk (registerBytes s.lfsr) s) := rfl

/-- With a key held, C1_PEEK answers the filter output and clocks nothing (R152). -/
theorem exec_c1Peek_keyed {s : State} (hk : s.keyed = true) :
    exec .c1Peek s = .next (endedOk [bitByte (filter s.lfsr)] s) := by
  change require s.keyed .notKeyed s (respond [bitByte (filter s.lfsr)] s) = _
  rw [hk, require_true, respond_endedOk]

/-- A command that ends OK with a payload is repeated by a second run that ends OK with the same payload: `LASTST` is written
already, so that the second run adds its response alone. -/
theorem endedOk_endedOk (p : Bytes) (s : State) :
    endedOk p (endedOk p s) = { endedOk p s with responses := (endedOk p s).responses ++ [0x00 :: p] } := rfl

/-- Settles O14: each payload is a function of registers the command leaves alone, so the second run's payload is the first one's
by `rfl`; STATUS, whose record holds `LASTST`, skips the write of `LASTST`. -/
theorem readsRepeat : Obligations.ReadsRepeat := by
  rintro i s (rfl | rfl | rfl | ⟨rfl, hk⟩)
  · exact ⟨_, _, _, exec_status s, exec_status _, rfl, rfl, fun _ => rfl⟩
  · exact ⟨_, _, _, exec_c1ReadState s, exec_c1ReadState _, rfl, endedOk_endedOk _ s, nofun⟩
  · exact ⟨_, _, _, exec_fcCrcRead s, exec_fcCrcRead _, rfl, endedOk_endedOk _ s, nofun⟩
  · exact ⟨_, _, _, exec_c1Peek_keyed hk, exec_c1Peek_keyed hk, rfl, endedOk_endedOk _ s, nofun⟩

/-! ### Bit streams (R44) -/

/-- A returned stream is the two bytes of its bit count, low byte first, and the packed bits. -/
theorem stream_eq_cons (s : Bits) :
    stream s = (BitVec.ofNat 16 s.length).extractLsb' 0 8 :: (BitVec.ofNat 16 s.length).extractLsb' 8 8 :: packBits s :=
  rfl

/-- A submitted stream's bit `k` is bit `k mod 8` of its data byte `k div 8`. -/
theorem unpackBits_getElem? {n k : Nat} (data : Bytes) (hk : k < n) :
    (unpackBits n data)[k]? = some ((data.getD (k / 8) 0).getLsbD (k % 8)) := by
  rw [unpackBits, List.getElem?_map, List.getElem?_range hk, Option.map_some]

/-- The padding of a submitted stream is not read. -/
theorem unpackBits_congr {n : Nat} {data other : Bytes}
    (h : ∀ k, k < n → (data.getD (k / 8) 0).getLsbD (k % 8) = (other.getD (k / 8) 0).getLsbD (k % 8)) :
    unpackBits n data = unpackBits n other :=
  List.map_congr_left fun k hk => h k (List.mem_range.mp hk)

/-- Settles O22: the count is read back from its two bytes, and packing and unpacking place each bit where R44 says. -/
theorem streamPacking : Obligations.StreamPacking := by
  refine ⟨fun s hs => ⟨_, _, packBits s, stream_eq_cons s, ?count, packBits_length s, fun k hk => packBits_bit s k ?inside⟩,
    fun n data => ⟨unpackBits_length n data, fun k => unpackBits_getElem? data⟩, fun n data other => unpackBits_congr,
    rfl⟩
  case count => rw [u16Bytes_toNat, stream_count s hs]
  case inside =>
    rw [packBits_length] at hk
    omega

end Sys2Proof.Machine

/-! SUPPORT. The encoding family (30_encoding.md): what each format reads, the opcode map row by row, and the one response of
every command buffer. -/

namespace Sys2Proof

open Machine Safety

/-! ### The formats (R61)

For each format, which operand bytes it accepts and which command it reads from them. -/

theorem formatA_eq_ok {i j : Instr} {rest : Bytes} : formatA i rest = .ok j ↔ rest = [] ∧ i = j := by
  cases rest <;> simp [formatA]

theorem formatB_eq_ok {k : Byte → Instr} {i : Instr} {rest : Bytes} :
    formatB k rest = .ok i ↔ ∃ imm, rest = [imm] ∧ k imm = i := by
  unfold formatB
  split <;> simp_all

theorem formatW_eq_ok {k : Byte → Byte → Byte → Byte → Instr} {i : Instr} {rest : Bytes} :
    formatW k rest = .ok i ↔ ∃ w0 w1 w2 w3, rest = [w0, w1, w2, w3] ∧ k w0 w1 w2 w3 = i := by
  unfold formatW
  split <;> simp_all

theorem formatN_eq_ok {k : Byte → Byte → Byte → Byte → Byte → Instr} {i : Instr} {rest : Bytes} :
    formatN k rest = .ok i ↔ ∃ cnt x0 x1 x2 x3, rest = [cnt, x0, x1, x2, x3] ∧ k cnt x0 x1 x2 x3 = i := by
  unfold formatN
  split <;> simp_all

theorem formatK_eq_ok {k : Byte → Byte → Byte → Byte → Byte → Byte → Instr} {i : Instr} {rest : Bytes} :
    formatK k rest = .ok i ↔ ∃ k0 k1 k2 k3 k4 k5, rest = [k0, k1, k2, k3, k4, k5] ∧ k k0 k1 k2 k3 k4 k5 = i := by
  unfold formatK
  split <;> simp_all

/-- A length byte that counts the data after it is the one `lengthAndData` writes, and there are at most 255 data bytes. -/
theorem lengthAndData_eq_cons {len : Byte} {data : Bytes} :
    data.length = len.toNat ↔ data.length ≤ 255 ∧ lengthAndData data = len :: data := by
  have hlen := len.isLt
  constructor
  · intro h
    refine ⟨by omega, ?_⟩
    rw [lengthAndData, h, BitVec.ofNat_toNat, BitVec.setWidth_eq]
  · rintro ⟨h, hcons⟩
    obtain ⟨rfl, -⟩ := List.cons.inj hcons
    rw [BitVec.toNat_ofNat]
    omega

theorem formatL_eq_ok {k : Bytes → Instr} {i : Instr} {rest : Bytes} :
    formatL k rest = .ok i ↔ ∃ data, data.length ≤ 255 ∧ rest = lengthAndData data ∧ k data = i := by
  cases rest with
  | nil => simp [formatL, lengthAndData]
  | cons len data =>
    simp only [formatL, lengthAndData_eq_cons]
    constructor
    · intro h
      split at h
      next hcount =>
        obtain ⟨hlen, hcons⟩ := hcount
        exact ⟨data, hlen, hcons.symm, Except.ok.inj h⟩
      next => cases h
    · rintro ⟨d, hd, hrest, rfl⟩
      obtain ⟨rfl, rfl⟩ := List.cons.inj hrest
      rw [if_pos ⟨hd, rfl⟩]

/-- Format F is format L after the byte `CTL`. -/
theorem formatF_cons (k : Byte → Bytes → Instr) (ctl : Byte) (rest : Bytes) :
    formatF k (ctl :: rest) = formatL (k ctl) rest := by
  cases rest <;> rfl

theorem formatF_eq_ok {k : Byte → Bytes → Instr} {i : Instr} {rest : Bytes} :
    formatF k rest = .ok i ↔
      ∃ ctl data, data.length ≤ 255 ∧ rest = ctl :: lengthAndData data ∧ k ctl data = i := by
  cases rest with
  | nil => simp [formatF]
  | cons ctl rest => simp [formatF_cons, formatL_eq_ok]

theorem formatS_eq_ok {k : Byte → BitVec 16 → Bytes → Instr} {i : Instr} {rest : Bytes} :
    formatS k rest = .ok i ↔
      ∃ ctl nb bits, bits.length = streamBytes nb.toNat ∧ rest = ctl :: (u16Bytes nb ++ bits) ∧ k ctl nb bits = i := by
  constructor
  · intro h
    unfold formatS at h
    split at h
    next ctl lo hi bits =>
      split at h
      next hbits => exact ⟨ctl, u16OfBytes lo hi, bits, hbits, by rw [u16Bytes_u16OfBytes]; rfl, Except.ok.inj h⟩
      next => cases h
    next => cases h
  · rintro ⟨ctl, nb, bits, hbits, rfl, rfl⟩
    simp [formatS, u16Bytes, hbits]

/-! ### Reading a command back from its buffer (R66) -/

/-- Settles O1: the opcode of each command selects its own row of the map, and the row's format reads the operands back; of these
only the counted ones (`DATA` and `BITS`) need the command to be well formed. -/
theorem decodeOfEncode : Obligations.DecodeOfEncode := by
  intro i hwf
  cases i with
  | nop | status | clearErr | blockReset | fcParity | fcEncShort | fcEnc4Bit | fcCrcInit | fcCrcUpdate | fcCrcRead
  | c1Discard | c1LoadKey | c1Peek | c1ReadState | nhSuc => rfl
  | c1Bit m | c1Nibble m | c1Byte m | c1Word m | c1EncByte m | c1DecByte m => cases m <;> rfl
  | fcCrc data | fcCrcCheck data => exact formatL_eq_ok.mpr ⟨data, of_decide_eq_true hwf, rfl, rfl⟩
  | fcEncStd ctl data => exact formatF_eq_ok.mpr ⟨ctl, data, of_decide_eq_true hwf, rfl, rfl⟩
  | cfEnc m ctl data => cases m <;> exact formatF_eq_ok.mpr ⟨ctl, data, of_decide_eq_true hwf, rfl, rfl⟩
  | fcDecStd ctl nb bits | fcDec4Bit ctl nb bits =>
    exact formatS_eq_ok.mpr ⟨ctl, nb, bits, of_decide_eq_true hwf, rfl, rfl⟩
  | cfDec m ctl nb bits =>
    cases m <;> exact formatS_eq_ok.mpr ⟨ctl, nb, bits, of_decide_eq_true hwf, rfl, rfl⟩

/-! ### The opcode map, row by row (R66, R68) -/

/-- The buffer `c` is the one of the well-formed command `i`. -/
def IsBufferOf (c : Bytes) (i : Instr) : Prop :=
  i.wellFormed = true ∧ encode i = c

/-- What the map holds for the opcode `op`: the format of its row, and how that format reads the bytes after the opcode, such that
the command read is the one whose buffer these bytes end; or no row at all. -/
inductive MapRow (op : Byte) : Option Format → (Bytes → Decoded) → Prop
  | A {i : Instr} (hk : IsBufferOf [op] i) : MapRow op (some .A) (formatA i)
  | B {k : Byte → Instr} (hk : ∀ imm, IsBufferOf [op, imm] (k imm)) : MapRow op (some .B) (formatB k)
  | W {k : Byte → Byte → Byte → Byte → Instr}
      (hk : ∀ w0 w1 w2 w3, IsBufferOf [op, w0, w1, w2, w3] (k w0 w1 w2 w3)) : MapRow op (some .W) (formatW k)
  | N {k : Byte → Byte → Byte → Byte → Byte → Instr}
      (hk : ∀ cnt x0 x1 x2 x3, IsBufferOf [op, cnt, x0, x1, x2, x3] (k cnt x0 x1 x2 x3)) :
      MapRow op (some .N) (formatN k)
  | K {k : Byte → Byte → Byte → Byte → Byte → Byte → Instr}
      (hk : ∀ k0 k1 k2 k3 k4 k5, IsBufferOf [op, k0, k1, k2, k3, k4, k5] (k k0 k1 k2 k3 k4 k5)) :
      MapRow op (some .K) (formatK k)
  | L {k : Bytes → Instr} (hk : ∀ data : Bytes, data.length ≤ 255 → IsBufferOf (op :: lengthAndData data) (k data)) :
      MapRow op (some .L) (formatL k)
  | F {k : Byte → Bytes → Instr}
      (hk : ∀ (ctl : Byte) (data : Bytes), data.length ≤ 255 →
        IsBufferOf (op :: ctl :: lengthAndData data) (k ctl data)) : MapRow op (some .F) (formatF k)
  | S {k : Byte → BitVec 16 → Bytes → Instr}
      (hk : ∀ (ctl : Byte) (nb : BitVec 16) (bits : Bytes), bits.length = streamBytes nb.toNat →
        IsBufferOf (op :: ctl :: (u16Bytes nb ++ bits)) (k ctl nb bits)) : MapRow op (some .S) (formatS k)
  | illegal : MapRow op none fun _ => .error .illegalOpcode

/-- R68: the opcodes it lists are the bytes that the table of R66 leaves out. -/
theorem opcodeFormat_eq_none_iff (op : Byte) : opcodeFormat op.toNat = none ↔ illegalOpcode op.toNat := by
  have hop := op.isLt
  generalize op.toNat = n at hop
  simp only [opcodeFormat, illegalOpcode, List.mem_cons, List.not_mem_nil, or_false]
  split_ifs <;> simp <;> omega

/-- Every opcode is in the row that the table of R66 gives it, or in none. -/
theorem decodeOperands_mapRow (op : Byte) : MapRow op (opcodeFormat op.toNat) (decodeOperands op) := by
  unfold decodeOperands
  split
  -- The map's arms in their order, gathered by format: 0x00 to 0x03, 0x18, 0x1A, 0x20, 0x22 and 0x23 have format A.
  case h_1 | h_2 | h_3 | h_4 | h_13 | h_15 | h_16 | h_18 | h_19 => exact .A ⟨rfl, rfl⟩
  -- 0x10, 0x11, 0x14, 0x19, 0x24 to 0x29 and 0x2C to 0x2F.
  case h_5 | h_6 | h_9 | h_14 | h_20 | h_21 | h_22 | h_23 | h_24 | h_25 | h_28 | h_29 | h_30 | h_31 =>
    exact .B fun _ => ⟨rfl, rfl⟩
  -- 0x2A and 0x2B, then 0x40, then 0x21.
  case h_26 | h_27 => exact .W fun _ _ _ _ => ⟨rfl, rfl⟩
  case h_36 => exact .N fun _ _ _ _ _ => ⟨rfl, rfl⟩
  case h_17 => exact .K fun _ _ _ _ _ _ => ⟨rfl, rfl⟩
  -- 0x16 and 0x17, then 0x12, 0x30 and 0x31, then 0x13, 0x15, 0x32 and 0x33.
  case h_11 | h_12 => exact .L fun _ h => ⟨decide_eq_true h, rfl⟩
  case h_7 | h_32 | h_33 => exact .F fun _ _ h => ⟨decide_eq_true h, rfl⟩
  case h_8 | h_10 | h_34 | h_35 => exact .S fun _ _ _ h => ⟨decide_eq_true h, rfl⟩
  -- No arm of the map: `op` is different from every opcode above.
  case h_37 =>
    have hillegal : illegalOpcode op.toNat := by
      unfold illegalOpcode
      simp only [imp_false] at *
      bv_omega
    rw [(opcodeFormat_eq_none_iff op).mpr hillegal]
    exact .illegal

section MapRow

variable {op : Byte} {f : Option Format} {read : Bytes → Decoded} (h : MapRow op f read)
include h

/-- A row reads a command from the end of that command's own buffer alone. -/
theorem MapRow.isBufferOf {rest : Bytes} {i : Instr} (hi : read rest = .ok i) : IsBufferOf (op :: rest) i := by
  cases h with
  | A hk => obtain ⟨rfl, rfl⟩ := formatA_eq_ok.mp hi; exact hk
  | B hk => obtain ⟨imm, rfl, rfl⟩ := formatB_eq_ok.mp hi; exact hk imm
  | W hk => obtain ⟨w0, w1, w2, w3, rfl, rfl⟩ := formatW_eq_ok.mp hi; exact hk w0 w1 w2 w3
  | N hk => obtain ⟨cnt, x0, x1, x2, x3, rfl, rfl⟩ := formatN_eq_ok.mp hi; exact hk cnt x0 x1 x2 x3
  | K hk => obtain ⟨k0, k1, k2, k3, k4, k5, rfl, rfl⟩ := formatK_eq_ok.mp hi; exact hk k0 k1 k2 k3 k4 k5
  | L hk => obtain ⟨data, hlen, rfl, rfl⟩ := formatL_eq_ok.mp hi; exact hk data hlen
  | F hk => obtain ⟨ctl, data, hlen, rfl, rfl⟩ := formatF_eq_ok.mp hi; exact hk ctl data hlen
  | S hk => obtain ⟨ctl, nb, bits, hlen, rfl, rfl⟩ := formatS_eq_ok.mp hi; exact hk ctl nb bits hlen
  | illegal => cases hi

/-- Only the opcodes without a row are illegal: a format's one error is a wrong length. -/
theorem MapRow.eq_illegalOpcode_iff (rest : Bytes) : read rest = .error .illegalOpcode ↔ f = none := by
  cases h with
  | illegal => exact iff_of_true rfl rfl
  | A => fun_cases formatA <;> simp
  | B => fun_cases formatB <;> simp
  | W => fun_cases formatW <;> simp
  | N => fun_cases formatN <;> simp
  | K => fun_cases formatK <;> simp
  | L => fun_cases formatL <;> simp
  | F => fun_cases formatF <;> simp
  | S => fun_cases formatS <;> simp

end MapRow

/-- Settles O2: the first byte's row of the map reads the command, and a row reads it from its own buffer alone. -/
theorem encodeOfDecode : Obligations.EncodeOfDecode := by
  intro c i hd
  cases c with
  | nil => cases hd
  | cons op rest => exact (decodeOperands_mapRow op).isBufferOf hd

theorem decode_eq_illegalOpcode_iff (op : Byte) (ops : Bytes) :
    decode (op :: ops) = .error .illegalOpcode ↔ illegalOpcode op.toNat :=
  ((decodeOperands_mapRow op).eq_illegalOpcode_iff ops).trans (opcodeFormat_eq_none_iff op)

/-- Settles O3: the words are evaluated. -/
theorem decodesSpecWords : Obligations.DecodesSpecWords :=
  ⟨rfl, rfl, rfl, rfl, rfl⟩

end Sys2Proof

namespace Sys2Proof.Machine

open Sys2Proof.Safety

/-! ### Illegal opcodes (R68) -/

/-- A failing command that is no STATUS, and has written nothing before its epilogue, leaves what R201 and R206 say. -/
theorem endCommand_eq_endedWith {st : Status} (h : st ≠ .ok) (s : State) :
    endCommand false st [] s = endedWith st.code s := by
  rw [endCommand, lastStAfter_command, stickyAfter_of_ne_ok h, stickyBit_eq_shift h, endedWith]

/-- The opcode of STATUS is legal. -/
theorem isStatusCommand_of_illegalOpcode {op : Byte} (h : illegalOpcode op.toNat) (ops : Bytes) :
    isStatusCommand (op :: ops) = false := by
  have hne : op ≠ 0x01 := by
    rintro rfl
    simp [illegalOpcode] at h
  simpa [isStatusCommand] using hne

/-- Settles O4: an illegal opcode is in no row of the map, and the buffer runs the epilogue alone. -/
theorem illegalOpcodesFail : Obligations.IllegalOpcodesFail := by
  refine ⟨fun s op ops rest hp hop => ?_, decode_eq_illegalOpcode_iff⟩
  rw [step_of_pending hp, execCommand_of_error ((decode_eq_illegalOpcode_iff op ops).mpr hop),
    isStatusCommand_of_illegalOpcode hop, errorStatus, endCommand_eq_endedWith (by decide)]
  rfl

/-! ### One response for each command (R71, R72) -/

theorem Effect.responses {i : Instr} {s x : State} (h : Effect s i x) : x.responses = s.responses := by
  cases h with
  | clocked _ _ hx => exact hx.responses
  | unchanged | clearErr | blockReset | crcInit | crcUpdate | loadKey | discard | decryptFailed => rfl

/-- Every command buffer, legal or not, ends with the epilogue of some status, with no payload unless that is OK, and what the
command has done before has touched neither list of the interface. -/
theorem execCommand_ends (c : Bytes) (s : State) :
    ∃ (b : Bool) (st : Status) (p : Bytes) (x : State), execCommand c s = .next (endCommand b st p x) ∧
      x.pending = s.pending ∧ x.responses = s.responses ∧ (st ≠ .ok → p = []) := by
  cases hd : decode c with
  | error e => exact ⟨_, _, [], s, execCommand_of_error hd s, rfl, rfl, fun _ => rfl⟩
  | ok i =>
    obtain ⟨st, p, x, hx, hfail, hok⟩ := exec_ends i s
    have hrun := (execCommand_of_ok hd s).trans hx
    by_cases hst : st = .ok
    · have heffect := (hok hst).effect
      exact ⟨_, st, p, x, hrun, heffect.pending, heffect.responses, fun hne => absurd hst hne⟩
    · obtain ⟨hp, hfailed⟩ := hfail hst
      have heffect := hfailed.effect
      exact ⟨_, st, p, x, hrun, heffect.pending, heffect.responses, fun _ => hp⟩

/-- Settles O7: the epilogue appends one response, its status first, and leaves the buffers not yet begun. -/
theorem oneResponsePerCommand : Obligations.OneResponsePerCommand := by
  intro s c rest hp
  obtain ⟨b, st, p, x, hx, hpending, hresponses, hpayload⟩ := execCommand_ends c { s with pending := rest }
  exact ⟨endCommand b st p x, st, p, (step_of_pending hp).trans hx, hpending, by simp [hresponses], hpayload⟩

end Sys2Proof.Machine

/-! SUPPORT. The control family (40_control.md): NOP and CLEAR_ERR. -/

namespace Sys2Proof.Machine

open Sys2Proof.Safety

/-! ### NOP (R100) -/

/-- Settles O15: NOP hands the state as it found it to the epilogue of a command that ends OK. -/
theorem nopResult : Obligations.NopResult :=
  respond_endedOk []

/-! ### CLEAR_ERR (R102) -/

theorem exec_clearErr (s : State) : exec .clearErr s = .next (endedOk [] { s with errSticky := 0x00 }) := rfl

/-- CLEAR_ERR has format A: any operand byte makes its length wrong (R61). -/
theorem decode_clearErr_operands (x : Byte) (xs : Bytes) : decode (0x02 :: x :: xs) = .error .length := rfl

theorem isStatusCommand_clearErr (xs : Bytes) : isStatusCommand (0x02 :: xs) = false := rfl

/-- Settles O17: with operands CLEAR_ERR is no command, so only the epilogue of a command that ends with LENGTH runs, which sets
`S_LENGTH` among the bits that stood. -/
theorem clearErrResult : Obligations.ClearErrResult := by
  refine ⟨rfl, exec_clearErr, fun s x xs rest hp => ?_⟩
  rw [step_of_pending hp, execCommand_of_error (decode_clearErr_operands x xs), isStatusCommand_clearErr, errorStatus,
    endCommand_eq_endedWith (by decide)]
  rfl

end Sys2Proof.Machine

/-! SUPPORT. The frame codec family (41_frame_codec.md): checks as branches on what they forbid, the CRC as iterated shifts
that lose nothing, streams of one byte, and the standard frame read back from its own stream. -/

namespace Sys2Proof.Machine

open Sys2Proof.Safety

/-! ### Commands with a check (R205) -/

theorem raise_endedWith {st : Status} (h : st ≠ .ok) (s : State) : raise st s = .next (endedWith st.code s) :=
  congrArg _ (endCommand_eq_endedWith h s)

/-- A check that fails exactly when `p` holds, as a branch on `p`. -/
theorem require_eq_ite {c : Bool} {st : Status} {p : Prop} [Decidable p] (hst : st ≠ .ok) (hc : c = true ↔ ¬p)
    (s : State) (go : Result) : require c st s go = if p then .next (endedWith st.code s) else go := by
  by_cases hp : p
  · have : c = false := by simpa [hp] using hc
    rw [if_pos hp, this, require_false, raise_endedWith hst]
  · rw [if_neg hp, hc.mpr hp, require_true]

theorem reservedClear_iff (mask b : Byte) : reservedClear mask b = true ↔ ¬b &&& mask ≠ 0 := by
  rw [reservedClear_eq, decide_eq_true_eq, not_ne_iff]

theorem encodeRange_iff (c : Bool) (len : Nat) :
    encodeRange c len = true ↔ ¬(len = 0 ∨ len + (if c then 2 else 0) > 32) := by
  cases c <;> simp [encodeRange] <;> omega

theorem decodeRange_iff (c : Bool) (nb : Nat) :
    decodeRange c nb = true ↔ ¬(nb % 9 ≠ 0 ∨ nb / 9 < 1 ∨ nb / 9 > 32 ∨ (c = true ∧ nb / 9 < 3)) := by
  cases c <;> simp [decodeRange] <;> omega

/-! ### CRC_A (R120 to R124) -/

theorem crcShift_iterate_injective (n : Nat) : Function.Injective crcShift^[n] :=
  Function.Injective.iterate (fun _ _ => crcShift_injective) n

/-- A step of the CRC loses nothing of the accumulator. -/
theorem crcStep_injective (b : Byte) : Function.Injective (crcStep · b) := fun _ _ h =>
  (BitVec.xor_left_inj _).mp (crcShift_iterate_injective 8 h)

/-- Two bytes that take one accumulator to the same value are the same. -/
theorem crcStep_byte_injective (c : BitVec 16) : Function.Injective (crcStep c) := fun b b' h => by
  have hw : b.setWidth 16 = b'.setWidth 16 := (BitVec.xor_right_inj _).mp (crcShift_iterate_injective 8 h)
  simpa using congrArg (BitVec.setWidth 8) hw

theorem foldl_crcStep_injective (d : Bytes) : Function.Injective (fun c => d.foldl crcStep c) := by
  induction d with
  | nil => exact Function.injective_id
  | cons b d ih => exact ih.comp (crcStep_injective b)

/-- The shift of the CRC register is linear over XOR. -/
theorem crcShift_xor (c c' : BitVec 16) : crcShift (c ^^^ c') = crcShift c ^^^ crcShift c' := by
  apply BitVec.eq_of_getLsbD_eq
  intro i _
  simp only [crcShift_getLsbD, BitVec.getLsbD_xor, Bool.and_xor_distrib_right, Bool.xor_assoc, Bool.xor_left_comm]

theorem crcShift_iterate_xor (n : Nat) (c c' : BitVec 16) :
    crcShift^[n] (c ^^^ c') = crcShift^[n] c ^^^ crcShift^[n] c' := by
  induction n with
  | zero => rfl
  | succ n ih => simp only [Function.iterate_succ_apply', ih, crcShift_xor]

/-- A byte that lies above bit 0 of the register moves down one place: the bit that leaves is 0. -/
theorem crcShift_byte (b : Byte) {k : Nat} (hk : k < 8) :
    crcShift (b.setWidth 16 <<< (k + 1)) = b.setWidth 16 <<< k := by
  apply BitVec.eq_of_getLsbD_eq
  intro i hi
  simp only [crcShift_getLsbD, BitVec.getLsbD_shiftLeft, BitVec.getLsbD_setWidth, Nat.add_sub_add_right]
  by_cases hi' : i + 1 < 16
  · simp [hi, hi', show i - k < 16 by omega]
  · have : b.getLsbD (i - k) = false := BitVec.getLsbD_of_ge b _ (by omega)
    simp [hi', this]

/-- Eight shifts bring the register's high byte down to its low byte. -/
theorem crcShift_iterate_byte (b : Byte) {k : Nat} (hk : k ≤ 8) :
    crcShift^[k] (b.setWidth 16 <<< k) = b.setWidth 16 := by
  induction k with
  | zero => simp
  | succ k ih => rw [Function.iterate_succ_apply, crcShift_byte b hk, ih (by omega)]

/-- The two bytes of a u16 have no place in common. -/
theorem u16OfBytes_eq_xor (lo hi : Byte) : u16OfBytes lo hi = lo.setWidth 16 ^^^ hi.setWidth 16 <<< 8 := by
  apply BitVec.eq_of_getLsbD_eq
  intro i _
  by_cases h : i < 8
  · simp [u16OfBytes, h]
  · simp [u16OfBytes, BitVec.getLsbD_of_ge lo i (by omega)]

/-- Two CRC steps take in both bytes at once: the second one waits eight shifts in the register's high byte. -/
theorem crcStep_crcStep (c : BitVec 16) (lo hi : Byte) :
    crcStep (crcStep c lo) hi = crcShift^[16] (c ^^^ u16OfBytes lo hi) := by
  calc crcStep (crcStep c lo) hi
      = crcShift^[8] (crcShift^[8] (c ^^^ lo.setWidth 16) ^^^ crcShift^[8] (hi.setWidth 16 <<< 8)) := by
        rw [crcShift_iterate_byte hi (Nat.le_refl 8)]; rfl
    _ = crcShift^[16] ((c ^^^ lo.setWidth 16) ^^^ hi.setWidth 16 <<< 8) := by
        rw [← crcShift_iterate_xor, ← Function.iterate_add_apply]
    _ = crcShift^[16] (c ^^^ u16OfBytes lo hi) := by
        rw [BitVec.xor_assoc, u16OfBytes_eq_xor]

theorem crcShift_iterate_zero (n : Nat) : crcShift^[n] 0 = 0 :=
  Function.iterate_fixed rfl n

theorem crcOk_append_two (d : Bytes) (lo hi : Byte) : crcOk (d ++ [lo, hi]) = (crcA d == u16OfBytes lo hi) := by
  simp [crcOk, dropCrc]

theorem crcA_append_two (d : Bytes) (lo hi : Byte) :
    crcA (d ++ [lo, hi]) = crcShift^[16] (crcA d ^^^ u16OfBytes lo hi) :=
  (crcA_append d [lo, hi]).trans (crcStep_crcStep _ lo hi)

theorem exists_eq_append_two {d : Bytes} (h : 2 ≤ d.length) : ∃ (e : Bytes) (lo hi : Byte), d = e ++ [lo, hi] := by
  obtain ⟨lo, hi, h2⟩ := List.length_eq_two.mp (by simp; omega : (d.drop (d.length - 2)).length = 2)
  exact ⟨d.take (d.length - 2), lo, hi, by rw [← h2, List.take_append_drop]⟩

/-- Settles O31: the last two bytes cancel the CRC_A before them exactly when they are equal to it, since sixteen shifts take
only 0 to 0. -/
theorem crcResidue : Obligations.CrcResidue := by
  intro d hd
  obtain ⟨e, lo, hi, rfl⟩ := exists_eq_append_two hd
  rw [crcOk_append_two, crcA_append_two, beq_iff_eq]
  calc crcA e = u16OfBytes lo hi
      ↔ crcA e ^^^ u16OfBytes lo hi = 0 := BitVec.xor_eq_zero_iff.symm
    _ ↔ crcShift^[16] (crcA e ^^^ u16OfBytes lo hi) = crcShift^[16] 0 := (crcShift_iterate_injective 16).eq_iff.symm
    _ ↔ crcShift^[16] (crcA e ^^^ u16OfBytes lo hi) = 0 := by rw [crcShift_iterate_zero]

/-- Two strings of which one byte differs have different CRC_As. -/
theorem crcA_set_ne {d : Bytes} {j : Nat} {b b' : Byte} (hj : d[j]? = some b) (hb : b' ≠ b) :
    crcA (d.set j b') ≠ crcA d := by
  obtain ⟨hlt, rfl⟩ := List.getElem?_eq_some_iff.mp hj
  have hd : d = d.take j ++ d[j] :: d.drop (j + 1) := by simp
  intro h
  rw [List.set_eq_take_append_cons_drop, if_pos hlt] at h
  conv at h => rhs; rw [hd]
  rw [crcA_append, crcA_append] at h
  exact hb (crcStep_byte_injective _ (foldl_crcStep_injective _ h))

/-- Settles O32: the string's CRC_A is 0, so that of the string with one byte changed is not. -/
theorem crcDetectsSingleBit : Obligations.CrcDetectsSingleBit := by
  intro d j k b hlen hok hj hk
  have hne : b ^^^ (1#8 <<< k) ≠ b := by
    intro h
    have := congrArg (·.getLsbD k) h
    simp [hk] at this
  rw [Bool.eq_false_iff, ne_eq, crcResidue _ (by simpa using hlen), ← (crcResidue d hlen).mp hok]
  exact crcA_set_ne hj hne

/-- Settles O30: the eight shifts are the iterates of `crcShift`. -/
theorem crcAStep : Obligations.CrcAStep := by
  refine ⟨rfl, fun d b => ⟨fun k => crcShift^[k] (crcA d ^^^ b.setWidth 16), rfl, fun k => ?_, ?_⟩⟩
  · exact Function.iterate_succ_apply' crcShift k _
  · exact crcA_append_singleton d b

/-! ### The CRC commands (R121, R122, R127 to R129) -/

theorem exec_fcCrc (d : Bytes) (s : State) : exec (.fcCrc d) s =
    if d.length > 32 then .next (endedWith 0x03 s) else .next (endedOk (u16Bytes (crcA d)) s) :=
  require_eq_ite (st := .length) (by decide) (by simp) s _

/-- Settles O28: the one check is the length; the two bytes of `crcInit` are both 63. -/
theorem fcCrcResult : Obligations.FcCrcResult :=
  ⟨fun _ => rfl, exec_fcCrc, exec_fcCrc []⟩

theorem exec_fcCrcCheck (d : Bytes) (s : State) : exec (.fcCrcCheck d) s =
    if d.length < 2 ∨ d.length > 32 then .next (endedWith 0x03 s)
    else .next (endedOk [if crcOk d then 0x01 else 0x00] s) := by
  rw [← bitByte_eq_ite]
  exact require_eq_ite (st := .length) (by decide) (by simp; omega) s _

/-- Settles O29: a string that ends in `lo hi` is checked by comparing the CRC_A before them with the number they make. -/
theorem fcCrcCheckResult : Obligations.FcCrcCheckResult := by
  intro d lo hi s
  have hlen : (d ++ [lo, hi]).length = d.length + 2 := by simp
  refine ⟨rfl, fun hlong => ?_, fun hshort => ?_, ?_, ?_⟩
  · rw [exec_fcCrcCheck, if_pos (by omega)]
  · have hok : crcOk (d ++ [lo, hi]) = true ↔ (crcA d).toNat = lo.toNat + 256 * hi.toNat := by
      rw [crcOk_append_two, beq_iff_eq, ← u16OfBytes_toNat, BitVec.toNat_inj]
    rw [exec_fcCrcCheck, if_neg (by omega)]
    simp only [hok]
  · rw [exec_fcCrcCheck, if_pos (by simp)]
  · rw [exec_fcCrcCheck, if_pos (by simp)]

/-- Settles O33: the three commands check nothing and end OK. -/
theorem incrementalCrcResults : Obligations.IncrementalCrcResults :=
  ⟨⟨rfl, rfl, fun _ => rfl⟩, fun s b => ⟨exec_fcCrcInit s, exec_fcCrcUpdate b s, exec_fcCrcRead s⟩⟩

/-! ### Odd parity (R110, R111) -/

/-- The XOR of a bit sequence tells whether its number of 1 bits is odd. -/
theorem foldr_xor_eq_countP (bs : Bits) : bs.foldr xor false = decide (bs.countP id % 2 = 1) := by
  induction bs with
  | nil => rfl
  | cons b bs ih =>
    rw [List.foldr_cons, ih, List.countP_cons]
    cases b with
    | false => simp
    | true =>
      rw [Bool.true_xor, ← decide_not, decide_eq_decide, id_eq, if_pos rfl]
      omega

/-- `1 ^ xor` of the low `n` bits of a value tells whether their number of 1 bits is even. -/
theorem not_foldr_xor_bitsOf {w : Nat} (n : Nat) (v : BitVec w) :
    (true ^^ (bitsOf n v).foldr xor false) = decide ((List.range n).countP (fun i => v.getLsbD i) % 2 = 0) := by
  rw [foldr_xor_eq_countP, Bool.true_xor, ← decide_not, decide_eq_decide, bitsOf, List.countP_map]
  exact Nat.mod_two_ne_one

/-- The odd parity bit of a byte is 1 when the byte has an even number of 1 bits (R110). -/
theorem oddpar_eq_countP (b : Byte) :
    oddpar b = decide ((List.range 8).countP (fun i => b.getLsbD i) % 2 = 0) :=
  not_foldr_xor_bitsOf 8 b

theorem exec_fcParity (b : Byte) (s : State) : exec (.fcParity b) s = .next (endedOk [bitByte (oddpar b)] s) := rfl

/-- Settles O19: the parity bit is read as a count of 1 bits. -/
theorem fcParityResult : Obligations.FcParityResult := by
  refine fun b s => ⟨rfl, ?_⟩
  rw [exec_fcParity, bitByte_eq_ite, oddpar_eq_countP]
  simp only [decide_eq_true_eq]

/-! ### Streams of one byte (R112, R117, R118) -/

/-- A stream of at most eight bits has one data byte. -/
theorem stream_of_length_le_eight {bs : Bits} (hpos : 0 < bs.length) (hle : bs.length ≤ 8) :
    stream bs = [BitVec.ofNat 8 bs.length, 0x00, byteOfBits bs] := by
  have hone : streamBytes bs.length = 1 := by unfold streamBytes; omega
  have hcount : BitVec.ofNat 16 bs.length = u16OfBytes (BitVec.ofNat 8 bs.length) 0x00 := by
    apply BitVec.eq_of_toNat_eq
    simp [u16OfBytes_toNat]
    omega
  rw [stream, packBits, hcount, u16Bytes_u16OfBytes, hone]
  simp [List.take_of_length_le hle]

theorem bitsOf_congr {w w' n : Nat} {v : BitVec w} {v' : BitVec w'} (h : ∀ i, i < n → v.getLsbD i = v'.getLsbD i) :
    bitsOf n v = bitsOf n v' :=
  List.map_congr_left fun i hi => h i (List.mem_range.mp hi)

theorem bitsOf_succ {w : Nat} (n : Nat) (v : BitVec w) : bitsOf (n + 1) v = bitsOf n v ++ [v.getLsbD n] := by
  simp [bitsOf, List.range_succ]

/-- Assembling the low `n` bits of a byte masks the others out. -/
theorem byteOfBits_bitsOf_eq_and {n : Nat} {mask : Byte} (hmask : ∀ i, i < 8 → mask.getLsbD i = decide (i < n))
    (b : Byte) : byteOfBits (bitsOf n b) = b &&& mask := by
  apply BitVec.eq_of_getLsbD_eq
  intro i hi
  rw [byteOfBits_getLsbD _ _ hi, BitVec.getLsbD_and, hmask i hi, List.getD_eq_getElem?_getD]
  by_cases h : i < n
  · rw [bitsOf_getElem? n b i h]
    simp [h]
  · rw [List.getElem?_eq_none (by simp; omega)]
    simp [h]

/-- A byte that has no 1 bit under one mask is left alone by the other one. -/
theorem and_low_of_and_high {low high b : Byte} (hmask : low ||| high = BitVec.allOnes 8) (h : b &&& high = 0#8) :
    b &&& low = b := by
  calc b &&& low = b &&& low ||| b &&& high := by rw [h, BitVec.or_zero]
    _ = b := by rw [← BitVec.and_or_distrib_left, hmask, BitVec.and_allOnes]

/-- A submitted stream of at most eight bits is the low bits of its first byte. -/
theorem unpackBits_cons_of_le_eight {n : Nat} (hn : n ≤ 8) (x : Byte) (data : Bytes) :
    unpackBits n (x :: data) = bitsOf n x := by
  refine List.map_congr_left fun k hk => ?_
  have hk8 : k < 8 := lt_of_lt_of_le (List.mem_range.mp hk) hn
  simp [Nat.div_eq_of_lt hk8, Nat.mod_eq_of_lt hk8]

theorem byteOfBits_bitsOf_four (b : Byte) : byteOfBits (bitsOf 4 b) = b &&& 0x0F :=
  byteOfBits_bitsOf_eq_and (by decide) b

theorem exec_fcEnc4Bit (imm : Byte) (s : State) : exec (.fcEnc4Bit imm) s =
    if imm &&& 0xF0 ≠ 0 then .next (endedWith 0x02 s) else .next (endedOk (stream (bitsOf 4 imm)) s) :=
  require_eq_ite (st := .reserved) (by decide) (reservedClear_iff 0xF0 imm) s _

/-- With the high four bits clear, the one data byte of the 4-bit stream is the value itself. -/
theorem stream_bitsOf_four {imm : Byte} (h : imm &&& 0xF0 = 0) : stream (bitsOf 4 imm) = [0x04, 0x00, imm] := by
  rw [stream_of_length_le_eight (by simp) (by simp), byteOfBits_bitsOf_four, and_low_of_and_high (by decide) h,
    bitsOf_length]
  rfl

/-- Settles O26: RESERVED is the check of the high four bits, and the stream of the low four is the value. -/
theorem fcEnc4BitResult : Obligations.FcEnc4BitResult := by
  refine fun imm s => ⟨rfl, ?_⟩
  rw [exec_fcEnc4Bit]
  split
  case isTrue => rfl
  case isFalse h => rw [stream_bitsOf_four (not_ne_iff.mp h)]

theorem exec_fcDec4Bit (ctl : Byte) (nb : BitVec 16) (bits : Bytes) (s : State) :
    exec (.fcDec4Bit ctl nb bits) s =
      if ctl &&& 0xFF ≠ 0 then .next (endedWith 0x02 s)
      else if nb ≠ 4 then .next (endedWith 0x03 s)
      else .next (endedOk [byteOfBits (unpackBits 4 bits)] s) := by
  change require _ .reserved s (require (nb == 4) .length s (respond _ s)) = _
  rw [require_eq_ite (by decide) (reservedClear_iff _ ctl), require_eq_ite (p := nb ≠ 4) (by decide) (by simp),
    respond_endedOk]
  rfl

/-- Settles O27: the two checks in order; past them the high four bits of the byte are not read. -/
theorem fcDec4BitResult : Obligations.FcDec4BitResult := by
  intro ctl nb x bits s
  have hctl : ctl &&& 0xFF = ctl := BitVec.and_allOnes
  refine ⟨rfl, fun hne => ?_, fun hzero hnb => ?_, ?_⟩
  · rw [exec_fcDec4Bit, hctl, if_pos hne]
  · rw [exec_fcDec4Bit, hctl, if_neg (not_ne_iff.mpr hzero), if_pos hnb]
  · rw [exec_fcDec4Bit, if_neg (by decide), if_neg (by decide), unpackBits_cons_of_le_eight (by decide),
      byteOfBits_bitsOf_four]

/-! ### Short frames (R112) -/

theorem and_0x80_ne_zero_iff (b : Byte) : b &&& 0x80 ≠ 0 ↔ b.getLsbD 7 = true := by
  rw [show (0x80 : Byte) = BitVec.twoPow 8 7 from rfl, BitVec.and_twoPow]
  cases b.getLsbD 7 <;> decide

/-- Bit 7 completes the seven bits of a value to a byte. -/
theorem byteOfBits_bitsOf_seven_append {b : Byte} (h : b.getLsbD 7 = false) (p : Bool) :
    byteOfBits (bitsOf 7 b ++ [p]) = if p then b ||| 0x80 else b := by
  cases p with
  | false => rw [← h, ← bitsOf_succ, byteOfBits_bitsOf, h]; rfl
  | true =>
    have hlow : bitsOf 7 b = bitsOf 7 (b ||| 0x80) := bitsOf_congr fun i hi => by
      have : ∀ i, i < 7 → (0x80 : Byte).getLsbD i = false := by decide
      rw [BitVec.getLsbD_or, this i hi, Bool.or_false]
    have htop : (b ||| 0x80).getLsbD 7 = true := by simp
    rw [hlow, ← htop, ← bitsOf_succ, byteOfBits_bitsOf, htop]; rfl

/-- The bits of the short frame of `IMM[6:0]`. -/
theorem shortBits_extractLsb' (withParity : Bool) (imm : Byte) :
    shortBits withParity (imm.extractLsb' 0 7) = bitsOf 7 imm ++
      if withParity then [decide ((List.range 7).countP (fun i => imm.getLsbD i) % 2 = 0)] else [] := by
  have hbits : bitsOf 7 (imm.extractLsb' 0 7) = bitsOf 7 imm := bitsOf_congr fun i hi => by simp [hi]
  rw [shortBits, xorAll, hbits, not_foldr_xor_bitsOf]

/-- The stream of a short frame, for either value of `SHORT_FRAME_PARITY`. -/
theorem stream_shortBits (withParity : Bool) {imm : Byte} (h : imm.getLsbD 7 = false) :
    stream (shortBits withParity (imm.extractLsb' 0 7)) =
      if withParity then [0x08, 0x00,
        if ((List.range 7).countP fun i => imm.getLsbD i) % 2 = 0 then imm ||| 0x80 else imm]
      else [0x07, 0x00, imm] := by
  rw [shortBits_extractLsb']
  cases withParity with
  | true =>
    simp only [if_true]
    rw [stream_of_length_le_eight (by simp) (by simp), byteOfBits_bitsOf_seven_append h]
    simp
  | false =>
    have hmask : imm &&& 0x7F = imm := and_low_of_and_high (high := 0x80) (by decide)
      (not_ne_iff.mp (mt (and_0x80_ne_zero_iff imm).mp (Bool.eq_false_iff.mp h)))
    simp only [Bool.false_eq_true, if_false, List.append_nil]
    rw [stream_of_length_le_eight (by simp) (by simp), byteOfBits_bitsOf_eq_and (mask := 0x7F) (by decide), hmask]
    simp

theorem exec_fcEncShort (imm : Byte) (s : State) : exec (.fcEncShort imm) s =
    if imm.getLsbD 7 = true then .next (endedWith 0x02 s)
    else .next (endedOk (stream (shortBits Config.shortFrameParity (imm.extractLsb' 0 7))) s) :=
  require_eq_ite (st := .reserved) (by decide)
    ((reservedClear_iff 0x80 imm).trans (not_congr (and_0x80_ne_zero_iff imm))) s _

/-- Settles O20: RESERVED is the check of bit 7, and the stream of the seven bits left is known for either parameter value. -/
theorem fcEncShortResult : Obligations.FcEncShortResult := by
  refine fun imm s => ⟨rfl, ?_⟩
  rw [exec_fcEncShort]
  split
  case isTrue => rfl
  case isFalse h =>
    rw [stream_shortBits _ (Bool.eq_false_iff.mpr h)]
    cases Config.shortFrameParity <;> rfl

/-! ### Standard frames (R113 to R115, R126) -/

theorem stdByteBits_getElem?_data (b : Byte) {i : Nat} (hi : i < 8) : (stdByteBits b)[i]? = some (b.getLsbD i) := by
  rw [stdByteBits, List.getElem?_append_left (by simpa using hi), bitsOf_getElem? 8 b i hi]

theorem stdByteBits_getElem?_parity (b : Byte) : (stdByteBits b)[8]? = some (oddpar b) := by
  simp [stdByteBits]

@[simp] theorem stdBits_length (d : Bytes) : (stdBits d).length = 9 * d.length := by
  induction d with
  | nil => rfl
  | cons b d ih =>
    rw [stdBits_cons, List.length_append, stdByteBits_length, ih, List.length_cons]
    omega

/-- Byte `j` of a frame has the nine stream positions from `9j` on. -/
theorem stdBits_getElem? {d : Bytes} {j i : Nat} {b : Byte} (hj : d[j]? = some b) (hi : i < 9) :
    (stdBits d)[9 * j + i]? = (stdByteBits b)[i]? := by
  induction d generalizing j with
  | nil => cases hj
  | cons a d ih =>
    rw [stdBits_cons]
    cases j with
    | zero =>
      obtain rfl : a = b := by simpa using hj
      rw [Nat.mul_zero, Nat.zero_add, List.getElem?_append_left (by simpa using hi)]
    | succ j =>
      rw [List.getElem?_append_right (by rw [stdByteBits_length]; omega), stdByteBits_length, ← ih hj]
      congr 1
      omega

/-- Settles O21: nine positions for each byte, laid out as one byte's own nine bits. -/
theorem stdBitsLayout : Obligations.StdBitsLayout := by
  refine fun d => ⟨stdBits_length d, fun j b hj => ⟨fun i hi => ?_, ?_⟩⟩
  · rw [stdBits_getElem? hj (by omega), stdByteBits_getElem?_data b hi]
  · rw [stdBits_getElem? hj (by decide), stdByteBits_getElem?_parity]

/-- FC_ENC_STD, its checks in order (R114). -/
theorem exec_fcEncStd (ctl : Byte) (d : Bytes) (s : State) :
    exec (.fcEncStd ctl d) s =
      if ctl &&& 0xFE ≠ 0 then .next (endedWith 0x02 s)
      else if d.length = 0 ∨ d.length + (if crcFlag ctl then 2 else 0) > 32 then .next (endedWith 0x03 s)
      else .next (endedOk (stream (stdBits (withCrc (crcFlag ctl) d))) s) := by
  change require _ .reserved s (require _ .length s (respond _ s)) = _
  rw [require_eq_ite (by decide) (reservedClear_iff _ ctl), require_eq_ite (by decide) (encodeRange_iff _ _),
    respond_endedOk]
  rfl

/-- Settles O23: the meaning's checks are R114's, and `withCrc` appends the CRC_A low byte first. -/
theorem fcEncStdResult : Obligations.FcEncStdResult :=
  fun ctl d s => ⟨rfl, exec_fcEncStd ctl d s⟩

/-- The last check of FC_DEC_STD: it is made when C = 1 alone, and the CRC bytes are then left out of the payload. -/
theorem require_crc_eq (c : Bool) (d : Bytes) (s : State) :
    require (!c || crcOk d) .crc s (respond (framePayload c d) s) =
      if c then if crcOk d then .next (endedOk (dropCrc d) s) else .next (endedWith 0x06 s)
      else .next (endedOk d s) := by
  cases c with
  | false => rfl
  | true => cases crcOk d <;> rfl

/-- FC_DEC_STD, its checks in order, on the bytes and parity verdicts of the received frame (R115). -/
theorem exec_fcDecStd (ctl : Byte) (nb : BitVec 16) (bits : Bytes) (s : State) :
    exec (.fcDecStd ctl nb bits) s =
      if ctl &&& 0xFE ≠ 0 then .next (endedWith 0x02 s)
      else if nb.toNat % 9 ≠ 0 ∨ nb.toNat / 9 < 1 ∨ nb.toNat / 9 > 32 ∨ (crcFlag ctl = true ∧ nb.toNat / 9 < 3)
        then .next (endedWith 0x03 s)
      else if (stdFrameBytes nb bits).all Prod.snd = false then .next (endedWith 0x05 s)
      else if crcFlag ctl then
        if crcOk ((stdFrameBytes nb bits).map Prod.fst)
        then .next (endedOk (dropCrc ((stdFrameBytes nb bits).map Prod.fst)) s) else .next (endedWith 0x06 s)
      else .next (endedOk ((stdFrameBytes nb bits).map Prod.fst) s) := by
  change require _ .reserved s (require _ .length s (require _ .parity s (require _ .crc s (respond _ s)))) = _
  rw [require_eq_ite (by decide) (reservedClear_iff _ ctl), require_eq_ite (by decide) (decodeRange_iff _ _),
    require_eq_ite (st := .parity) (p := (stdFrameBytes nb bits).all Prod.snd = false) (by decide) (by simp),
    require_crc_eq]
  rfl

/-- Byte `j` of a received frame, from its eight stream positions. -/
def receivedByte (s : Bits) (j : Nat) : Byte :=
  byteOfBits ((List.range 8).map fun i => s.getD (9 * j + i) false)

/-- The eight data bits of group `j` assemble the byte at its stream positions, past the end of the stream too. -/
theorem byteOfBits_take_drop (s : Bits) (j : Nat) : byteOfBits ((s.drop (9 * j)).take 8) = receivedByte s j := by
  apply BitVec.eq_of_getLsbD_eq
  intro i hi
  simp [receivedByte, byteOfBits_getLsbD _ _ hi, List.getElem?_take_of_lt hi, List.getElem?_range hi]

theorem stdFrameBytes_eq (nb : BitVec 16) (bits : Bytes) :
    stdFrameBytes nb bits = (List.range (nb.toNat / 9)).map fun j =>
      (receivedByte (unpackBits nb.toNat bits) j,
        (unpackBits nb.toNat bits).getD (9 * j + 8) false == oddpar (receivedByte (unpackBits nb.toNat bits) j)) := by
  rw [stdFrameBytes, frameGroups, List.map_map]
  refine List.map_congr_left fun j _ => ?_
  simp only [Function.comp_apply, byteOfBits_take_drop]

theorem stdFrameBytes_map_fst (nb : BitVec 16) (bits : Bytes) :
    (stdFrameBytes nb bits).map Prod.fst = (List.range (nb.toNat / 9)).map (receivedByte (unpackBits nb.toNat bits)) := by
  rw [stdFrameBytes_eq, List.map_map]
  rfl

/-- A parity verdict is wrong exactly when some byte's parity bit is not its odd parity. -/
theorem stdFrameBytes_all_eq_false_iff (nb : BitVec 16) (bits : Bytes) :
    (stdFrameBytes nb bits).all Prod.snd = false ↔ ∃ j, j < nb.toNat / 9 ∧
      (unpackBits nb.toNat bits).getD (9 * j + 8) false ≠ oddpar (((stdFrameBytes nb bits).map Prod.fst).getD j 0) := by
  rw [stdFrameBytes_map_fst, stdFrameBytes_eq, List.all_map, List.all_eq_false]
  simp only [List.mem_range, Function.comp_apply, beq_iff_eq]
  refine exists_congr fun j => and_congr_right fun hj => ?_
  rw [List.getD_eq_getElem?_getD (l := List.map _ _), List.getElem?_map, List.getElem?_range hj, Option.map_some,
    Option.getD_some]

/-- Settles O24: the frame's groups are its stream positions, so the parity verdicts and the bytes are those of R115. -/
theorem fcDecStdResult : Obligations.FcDecStdResult := by
  intro ctl nb bits s n bit d
  refine ⟨rfl, ?_⟩
  have hd : (stdFrameBytes nb bits).map Prod.fst = d := stdFrameBytes_map_fst nb bits
  have hlen : d.length = n := by simp [d]
  have hcrc : crcOk d = true ↔ crcA (d.take (n - 2)) = u16OfBytes (d.getD (n - 2) 0) (d.getD (n - 1) 0) := by
    rw [crcOk, dropCrc, hlen, beq_iff_eq]
  have hpayload : dropCrc d = d.take (n - 2) := by rw [dropCrc, hlen]
  rw [exec_fcDecStd]
  simp only [stdFrameBytes_all_eq_false_iff, hd, hcrc, hpayload]
  rfl

/-- The bytes and parity verdicts that are read from the packed bits of a frame's groups. -/
theorem stdFrameBytes_packBits {gs : List (Bits × Bool)} (h : ∀ g ∈ gs, g.1.length = 8) {nb : BitVec 16}
    (hnb : nb.toNat = 9 * gs.length) :
    stdFrameBytes nb (packBits (groupBits gs)) = gs.map fun g => (byteOfBits g.1, g.2 == oddpar (byteOfBits g.1)) := by
  have hlen : nb.toNat = (groupBits gs).length := hnb.trans (groupBits_length gs h).symm
  have hdiv : nb.toNat / 9 = gs.length := by omega
  rw [stdFrameBytes, hdiv, hlen, unpackBits_packBits, frameGroups_groupBits gs h]

/-- A standard frame is read back as its bytes, each parity bit right. -/
theorem stdFrameBytes_stdBits (d : Bytes) {nb : BitVec 16} (hnb : nb.toNat = 9 * d.length) :
    stdFrameBytes nb (packBits (stdBits d)) = d.map fun b => (b, true) := by
  rw [stdBits_eq_groupBits, stdFrameBytes_packBits (by simp) (by simpa using hnb), List.map_map]
  exact List.map_congr_left fun b _ => by simp

@[simp] theorem crcFlag_bitByte (c : Bool) : crcFlag (bitByte c) = c := by cases c <;> rfl

/-- A flag alone in `CTL` leaves its reserved bits 0. -/
theorem bitByte_reserved (c : Bool) : bitByte c &&& 0xFE = 0 := by cases c <;> rfl

section RoundTrip

variable {c : Bool} {d : Bytes} (hpos : 1 ≤ d.length) (hle : d.length + (if c then 2 else 0) ≤ 32)
include hpos hle

/-- FC_ENC_STD on a string in its range, with or without CRC. -/
theorem exec_fcEncStd_in_range (s : State) :
    exec (.fcEncStd (bitByte c) d) s = .next (endedOk (stream (stdBits (withCrc c d))) s) := by
  rw [exec_fcEncStd, crcFlag_bitByte, if_neg (not_ne_iff.mpr (bitByte_reserved c)), if_neg (by omega)]

/-- FC_DEC_STD on the standard frame of such a string: no parity bit is wrong, and the frame ends in its CRC_A. -/
theorem exec_fcDecStd_stdBits (u : State) {nb : BitVec 16} (hnb : nb.toNat = 9 * (withCrc c d).length) :
    exec (.fcDecStd (bitByte c) nb (packBits (stdBits (withCrc c d)))) u = .next (endedOk d u) := by
  have hbytes : ((withCrc c d).map fun b => (b, true)).map Prod.fst = withCrc c d := by simp [Function.comp_def]
  have hrange : ¬(nb.toNat % 9 ≠ 0 ∨ nb.toNat / 9 < 1 ∨ nb.toNat / 9 > 32 ∨ (c = true ∧ nb.toNat / 9 < 3)) := by
    rw [withCrc_length] at hnb
    cases c <;> simp at hnb hle ⊢ <;> omega
  rw [exec_fcDecStd, crcFlag_bitByte, stdFrameBytes_stdBits _ hnb, hbytes, if_neg (not_ne_iff.mpr (bitByte_reserved c)),
    if_neg hrange, if_neg (by simp)]
  cases c with
  | false => rfl
  | true =>
    have hpayload : dropCrc (withCrc true d) = d := framePayload_withCrc true d
    rw [if_pos rfl, if_pos (crcOk_withCrc d), hpayload]

end RoundTrip

/-- The data bytes of one byte's frame: the byte, and its parity bit alone in a second one. -/
theorem packBits_group (b : Byte) (p : Bool) : packBits (groupBits [(bitsOf 8 b, p)]) = [b, bitByte p] := by
  have hp : byteOfBits [p] = bitByte p := by cases p <;> rfl
  simp [packBits, streamBytes, List.range_succ, hp]

/-- FC_DEC_STD on the frame of one byte whose parity bit is wrong. -/
theorem exec_fcDecStd_wrong_parity {b : Byte} {p : Bool} (hp : p ≠ oddpar b) (u : State) :
    exec (.fcDecStd 0x00 9 [b, bitByte p]) u = .next (endedWith 0x05 u) := by
  have hverdict : stdFrameBytes 9 [b, bitByte p] = [(b, false)] := by
    rw [← packBits_group, stdFrameBytes_packBits (by simp) (by rfl)]
    simp [hp]
  rw [exec_fcDecStd, hverdict, if_neg (by decide), if_neg (by decide)]
  rfl

/-- The stream of one byte's frame. -/
theorem stream_stdBits_singleton (b : Byte) : stream (stdBits [b]) = [0x09, 0x00, b, bitByte (oddpar b)] := by
  have hgroup : stdBits [b] = groupBits [(bitsOf 8 b, oddpar b)] := stdBits_eq_groupBits [b]
  have hcount : u16Bytes (BitVec.ofNat 16 (9 * 1)) = [0x09, 0x00] := rfl
  rw [stream, stdBits_length, List.length_singleton, hcount, hgroup, packBits_group]
  rfl

/-- Settles O25: a standard frame is the groups of its bytes, and packing, unpacking and grouping give them back. -/
theorem stdFrameRoundTrip : Obligations.StdFrameRoundTrip := by
  refine ⟨fun b s u => ⟨b, bitByte (oddpar b), ?encode, ?decode, ?flipped⟩, fun d s u hpos hle => ?withCrc⟩
  case encode =>
    rw [← stream_stdBits_singleton]
    exact exec_fcEncStd_in_range (c := false) (d := [b]) (Nat.le_refl 1) (by simp) s
  case decode =>
    rw [← packBits_group]
    exact exec_fcDecStd_stdBits (c := false) (d := [b]) (Nat.le_refl 1) (by simp) u rfl
  case flipped =>
    have hflip : bitByte (oddpar b) ^^^ 0x01 = bitByte (!oddpar b) := by cases oddpar b <;> rfl
    rw [hflip]
    exact exec_fcDecStd_wrong_parity (by simp) u
  case withCrc =>
    have hle' : d.length + (if true then 2 else 0) ≤ 32 := by simpa using hle
    have hlen : (withCrc true d).length ≤ 32 := (withCrc_length true d).trans_le hle'
    refine ⟨_, _, _, exec_fcEncStd_in_range hpos hle' s, exec_fcDecStd_stdBits hpos hle' u ?_⟩
    rw [u16OfBytes_u16Bytes, stream_count _ (by rw [stdBits_length]; omega), stdBits_length]

end Sys2Proof.Machine

/-! SUPPORT. The cipher family (42_crypto1.md): the cells that feedback, filter and shift read and write, the key layout, one clock
step, and the commands that clock bits, bytes and words. -/

namespace Sys2Proof.Machine

open Sys2Proof.Safety

/-! ### The feedback (R142) -/

/-- The tap cells of R142, as the mask has them. -/
def tapMask : BitVec 48 := 0x0E882B0AD621

/-- The tap cells of R142, listed. -/
def taps : List Nat :=
  [0, 5, 9, 10, 12, 14, 15, 17, 19, 24, 25, 27, 29, 35, 39, 41, 42, 43]

theorem filter_tapMask_range : (List.range 48).filter (tapMask.getLsbD ·) = taps := by decide

theorem feedback_eq_foldr (x : BitVec 48) : feedback x = (taps.map x.getLsbD).foldr xor false := by
  simp [feedback, taps]

/-- Settles O35: the cells counted under the mask are the taps, and the XOR of the taps tells whether their count is odd. -/
theorem feedbackIsMaskParity : Obligations.FeedbackIsMaskParity := by
  refine ⟨fun x => ?_, fun i hi => ?_⟩
  · have hcount : (List.range 48).countP (fun i => (x &&& tapMask).getLsbD i) = (taps.map x.getLsbD).countP id := by
      rw [← filter_tapMask_range, List.countP_map, List.countP_filter]
      simp
    rw [feedback_eq_foldr, foldr_xor_eq_countP, ← hcount]
    rfl
  · change tapMask.getLsbD i = true ↔ i ∈ taps
    rw [← filter_tapMask_range, List.mem_filter, List.mem_range]
    exact (and_iff_right hi).symm

/-- Registers that agree above cell 0 and have the same feedback agree in cell 0, which is a tap. -/
theorem getLsbD_zero_eq_of_feedback_eq {x y : BitVec 48} (h : ∀ i, 0 < i → x.getLsbD i = y.getLsbD i)
    (hf : feedback x = feedback y) : x.getLsbD 0 = y.getLsbD 0 := by
  have hrest : taps.tail.map x.getLsbD = taps.tail.map y.getLsbD :=
    List.map_congr_left fun i hi => h i ((by decide : ∀ i ∈ taps.tail, 0 < i) i hi)
  have hcons (z : BitVec 48) : feedback z = (z.getLsbD 0 ^^ (taps.tail.map z.getLsbD).foldr xor false) :=
    feedback_eq_foldr z
  rw [hcons, hcons, hrest] at hf
  exact Bool.xor_left_inj.mp hf

/-! ### The filter (R143, R144) -/

/-- Settles O36: all 32 inputs are evaluated. -/
theorem filterTruthTables : Obligations.FilterTruthTables := by
  unfold Obligations.FilterTruthTables
  decide

/-- The cells that the filter reads (R144). -/
def filterMask : BitVec 48 := 0xAAAAAAAAAA00

/-- The filter reads no cell outside its mask. -/
theorem filter_congr {x y : BitVec 48} (h : ∀ i, filterMask.getLsbD i = true → x.getLsbD i = y.getLsbD i) :
    filter x = filter y := by
  simp only [filter, h 9 rfl, h 11 rfl, h 13 rfl, h 15 rfl, h 17 rfl, h 19 rfl, h 21 rfl, h 23 rfl, h 25 rfl, h 27 rfl,
    h 29 rfl, h 31 rfl, h 33 rfl, h 35 rfl, h 37 rfl, h 39 rfl, h 41 rfl, h 43 rfl, h 45 rfl, h 47 rfl]

/-- A cell outside the mask does not change the filter output. -/
theorem filter_xor_cell {i : Nat} (hi : filterMask.getLsbD i = false) (x : BitVec 48) :
    filter (x ^^^ (1#48 <<< i)) = filter x := by
  refine filter_congr fun j hj => ?_
  have hne : i ≠ j := by rintro rfl; simp [hi] at hj
  change (x ^^^ BitVec.twoPow 48 i).getLsbD j = x.getLsbD j
  simp [hne]

/-- Registers, each with cells of the mask that change its filter output. -/
def filterWitnesses : List (BitVec 48 × List Nat) :=
  [(0x202200200200, [9, 13, 15, 17, 19, 21, 35, 37, 39, 41, 43, 45]), (0x000080000800, [11, 25, 27, 29, 33]),
   (0x000202020200, [23, 31]), (0x020000000000, [47])]

theorem filterWitnesses_xor_cell_ne :
    ∀ w ∈ filterWitnesses, ∀ i ∈ w.2, filter (w.1 ^^^ (1#48 <<< i)) ≠ filter w.1 := by
  decide

theorem filterWitnesses_cover : ∀ i, i < 48 → filterMask.getLsbD i = true → ∃ w ∈ filterWitnesses, i ∈ w.2 := by
  decide

/-- Settles O37: the groups are the model's, no cell outside the mask is read, and the witnesses show each cell in it. -/
theorem filterReadsOddCells : Obligations.FilterReadsOddCells := by
  refine ⟨fun _ => rfl, fun i hi => ⟨fun ⟨x, hx⟩ => ?_, fun hmask => ?_⟩⟩
  · by_contra hmask
    exact hx (filter_xor_cell (Bool.eq_false_of_not_eq_true hmask) x)
  · obtain ⟨w, hw, hcell⟩ := filterWitnesses_cover i hi hmask
    exact ⟨w.1, filterWitnesses_xor_cell_ne w hw i hcell⟩

/-! ### The clock step (R141, R145 to R147) -/

/-- The shift moves every cell one place toward cell 0 (R141). -/
theorem shiftIn_getLsbD (new : Bool) (x : BitVec 48) {i : Nat} (hi : i < 47) :
    (shiftIn new x).getLsbD i = x.getLsbD (i + 1) := by
  simp [shiftIn, hi, Nat.add_comm]

/-- The new bit enters at cell 47 (R141). -/
theorem shiftIn_getLsbD_top (new : Bool) (x : BitVec 48) : (shiftIn new x).getLsbD 47 = new := by
  simp [shiftIn]

/-- Settles O38: the register is the shifted one, whose cells are those of R141. -/
theorem clockStep : Obligations.ClockStep := by
  intro inp e s
  have hcnt : BitVec.ofNat 32 (s.clkcnt.toNat + 1) = s.clkcnt + 1 := by simp [BitVec.ofNat_add]
  refine ⟨_, ?_, fun i hi => shiftIn_getLsbD (feedback s.lfsr ^^ inp ^^ (e && filter s.lfsr)) s.lfsr hi, ?_⟩
  · rw [hcnt]
    rfl
  · rw [shiftIn_getLsbD_top, Bool.xor_assoc]

/-- Equal shifted registers come from the same new bit and from registers that agree above cell 0. -/
theorem eq_of_shiftIn_eq {new new' : Bool} {x y : BitVec 48} (h : shiftIn new x = shiftIn new' y) :
    new = new' ∧ ∀ i, 0 < i → x.getLsbD i = y.getLsbD i := by
  refine ⟨by rw [← shiftIn_getLsbD_top new x, h, shiftIn_getLsbD_top], fun i hpos => ?_⟩
  obtain ⟨j, rfl⟩ := Nat.exists_eq_add_one.mpr hpos
  by_cases hj : j < 47
  · rw [← shiftIn_getLsbD new x hj, h, shiftIn_getLsbD new' y hj]
  · rw [BitVec.getLsbD_of_ge _ _ (by omega), BitVec.getLsbD_of_ge _ _ (by omega)]

/-- R147 (c) on the register: the cells above 0 moved to known places, hence the keystream bit is known, hence the feedback, hence
cell 0. -/
theorem clock_lfsr_injective {inp e : Bool} {s u : State} (h : (clock inp e s).2.lfsr = (clock inp e u).2.lfsr) :
    s.lfsr = u.lfsr := by
  rw [clock_lfsr, clock_lfsr] at h
  obtain ⟨hnew, hcells⟩ := eq_of_shiftIn_eq h
  have hks : filter s.lfsr = filter u.lfsr := filter_congr fun i hi => hcells i <| by
    by_contra h0
    obtain rfl : i = 0 := by omega
    exact absurd hi (by decide)
  rw [hks, Bool.xor_left_inj, Bool.xor_left_inj] at hnew
  apply BitVec.eq_of_getLsbD_eq
  intro i _
  cases i with
  | zero => exact getLsbD_zero_eq_of_feedback_eq hcells hnew
  | succ i => exact hcells _ i.succ_pos

/-- R147 (c): what a step leaves alone and `CLKCNT` are read back from the state after it. -/
theorem clock_injective {inp e : Bool} {s u : State} (h : (clock inp e s).2 = (clock inp e u).2) : s = u := by
  have hlfsr := clock_lfsr_injective (congrArg State.lfsr h)
  cases s
  cases u
  simp_all [clock]

/-- R147 (b): the zero register is a fixed point of the clock step on input 0, with keystream bit 0. -/
theorem clock_zero (e : Bool) {s : State} (h : s.lfsr = 0) :
    filter s.lfsr = false ∧ (clock false e s).2.lfsr = 0 := by
  have hfilter : filter 0 = false := by decide
  have hfeedback : feedback 0 = false := by decide
  have hshift : shiftIn false 0 = 0 := by decide
  rw [clock_lfsr, h, hfilter, hfeedback, Bool.and_false]
  exact ⟨rfl, hshift⟩

/-- Settles O39: a step computes the keystream bit and the register from the register before it. -/
theorem clockProperties : Obligations.ClockProperties := by
  refine fun inp e s u => ⟨fun h => ?_, clock_zero e, clock_injective⟩
  rw [clock_ks, clock_ks, clock_lfsr, clock_lfsr, h]
  exact ⟨rfl, rfl⟩

/-- With keystream bit 0 the mode makes no difference (R154). -/
theorem clock_eq_of_filter_false {s : State} (h : filter s.lfsr = false) (inp e e' : Bool) :
    clock inp e s = clock inp e' s := by
  simp [clock, h]

/-! ### The key layout (R150, R153) -/

/-- R153: byte `a` of the register holds cells `8a` to `8a+7`. -/
theorem registerBytes_getLsbD (x : BitVec 48) {a b : Nat} (ha : a < 6) (hb : b < 8) :
    ((registerBytes x).getD a 0).getLsbD b = x.getLsbD (8 * a + b) := by
  have hbytes : registerBytes x = (List.range 6).map fun a => x.extractLsb' (8 * a) 8 := rfl
  simp [hbytes, ha, hb]

/-- The key is read back from the register it was loaded into. -/
theorem registerBytes_keyRegister (k0 k1 k2 k3 k4 k5 : Byte) :
    registerBytes (keyRegister k0 k1 k2 k3 k4 k5) = [k0, k1, k2, k3, k4, k5] := by
  have happend (i : Nat) : (keyRegister k0 k1 k2 k3 k4 k5).extractLsb' i 8 =
      (k5 ++ k4 ++ k3 ++ k2 ++ k1 ++ k0).extractLsb' i 8 := rfl
  simp (disch := decide) only [registerBytes, happend, BitVec.extractLsb'_append_eq_of_le,
    BitVec.extractLsb'_append_eq_of_add_le, Nat.reduceSub, BitVec.extractLsb'_eq_self]

/-- R150: bit `b` of key byte `a` goes to cell `8a+b`. -/
theorem keyRegister_getLsbD (k0 k1 k2 k3 k4 k5 : Byte) {a b : Nat} (ha : a < 6) (hb : b < 8) :
    (keyRegister k0 k1 k2 k3 k4 k5).getLsbD (8 * a + b) = ([k0, k1, k2, k3, k4, k5].getD a 0).getLsbD b := by
  rw [← registerBytes_getLsbD _ ha hb, registerBytes_keyRegister]

/-- The zero register yields keystream 0 for as long as only 0 bits are fed (R150). -/
theorem clockBits_replicate_false (n : Nat) (e : Bool) {s : State} (h : s.lfsr = 0) :
    (clockBits e (List.replicate n false) s).1 = List.replicate n false ∧
      (clockBits e (List.replicate n false) s).2.lfsr = 0 := by
  induction n generalizing s with
  | zero => exact ⟨rfl, h⟩
  | succ n ih =>
    obtain ⟨hks, hnext⟩ := clock_zero e h
    obtain ⟨hbits, hlfsr⟩ := ih hnext
    rw [List.replicate_succ, clockBits_cons, hks, hbits]
    exact ⟨rfl, hlfsr⟩

/-- Settles O40: C1_LOAD_KEY writes `keyRegister`, whose cells and bytes are those of the key. -/
theorem loadKeyResult : Obligations.LoadKeyResult := by
  refine ⟨fun _ _ _ _ _ _ => rfl, fun k0 k1 k2 k3 k4 k5 s => ⟨keyRegister k0 k1 k2 k3 k4 k5, rfl, fun a b => ?_,
    fun u hu => ?_⟩, rfl, fun n e s => clockBits_replicate_false n e⟩
  · exact keyRegister_getLsbD k0 k1 k2 k3 k4 k5
  · rw [exec_c1ReadState, hu, registerBytes_keyRegister]

/-- Settles O43: the payload is the register's bytes, and KEYED is not read. -/
theorem readStateResult : Obligations.ReadStateResult :=
  ⟨rfl, fun s => ⟨registerBytes s.lfsr, exec_c1ReadState s, rfl, fun _ _ => registerBytes_getLsbD s.lfsr⟩⟩

/-! ### The commands that need a key (R152, R154 to R159, R204) -/

theorem require_keyed_eq_ite (s : State) (go : Result) :
    require s.keyed .notKeyed s go = if s.keyed = false then .next (endedWith 0x04 s) else go :=
  require_eq_ite (st := .notKeyed) (by decide) (by simp) s go

/-- Settles O41: the commands are evaluated, C1_BYTE up to its check of KEYED. -/
theorem discardResult : Obligations.DiscardResult := by
  refine ⟨rfl, fun s => ⟨rfl, fun m b hk => ?_⟩⟩
  exact (require_keyed_eq_ite s _).trans (if_pos hk)

/-- Settles O42: the payload is the filter output, which every clock step returns. -/
theorem peekResult : Obligations.PeekResult := by
  refine ⟨rfl, fun s => ⟨fun hk => ?_, fun hk => ⟨filter s.lfsr, ?_, rfl, fun _ _ => rfl⟩⟩⟩
  · exact (require_keyed_eq_ite s _).trans (if_pos hk)
  · rw [← bitByte_eq_ite]
    exact exec_c1Peek_keyed hk

theorem exec_c1Bit (m : Bool) (imm : Byte) (s : State) : exec (.c1Bit m imm) s =
    if imm &&& 0xFE ≠ 0 then .next (endedWith 0x02 s)
    else if s.keyed = false then .next (endedWith 0x04 s)
    else .next (endedOk [bitByte (filter s.lfsr)] (clock (imm.getLsbD 0) m s).2) := by
  change require _ .reserved s (require s.keyed .notKeyed s _) = _
  rw [require_eq_ite (by decide) (reservedClear_iff _ imm), require_keyed_eq_ite]
  rfl

/-- Settles O44: the two checks in order; past them the mode matters through the keystream bit alone. -/
theorem bitResult : Obligations.BitResult := by
  refine fun m imm s => ⟨by cases m <;> rfl, ?_, fun h => ?_⟩
  · rw [exec_c1Bit, bitByte_eq_ite]
  · rw [exec_c1Bit, exec_c1Bit, clock_eq_of_filter_false h _ true false]

section Keyed

variable {s : State} (hk : s.keyed = true)
include hk

theorem require_keyed (go : Result) : require s.keyed .notKeyed s go = go := by
  rw [hk, require_true]

/-- C1_BIT on one bit. -/
theorem exec_c1Bit_keyed (m b : Bool) :
    exec (.c1Bit m (bitByte b)) s = .next (endedOk [bitByte (filter s.lfsr)] (clock b m s).2) := by
  have hbit : (bitByte b).getLsbD 0 = b := by cases b <;> rfl
  rw [exec_c1Bit, if_neg (not_ne_iff.mpr (bitByte_reserved b)), if_neg (by simp [hk]), hbit]

theorem exec_c1Nibble_keyed (m : Bool) {v : Byte} (hv : v &&& 0xF0 = 0) : exec (.c1Nibble m v) s =
    .next (endedOk [byteOfBits (clockBits m (bitsOf 4 v) s).1] (clockBits m (bitsOf 4 v) s).2) := by
  change require (reservedClear 0xF0 v) .reserved s (require s.keyed .notKeyed s _) = _
  rw [reservedClear_eq, decide_eq_true hv, require_true, require_keyed hk, respond_endedOk]

theorem exec_c1Byte_keyed (m : Bool) (v : Byte) :
    exec (.c1Byte m v) s = .next (endedOk [(clockByte m v s).1] (clockByte m v s).2) :=
  require_keyed hk _

theorem exec_c1Word_keyed (m : Bool) (w0 w1 w2 w3 : Byte) : exec (.c1Word m w0 w1 w2 w3) s =
    .next (endedOk (clockBytes m [w0, w1, w2, w3] s).1 (clockBytes m [w0, w1, w2, w3] s).2) :=
  require_keyed hk _

end Keyed

/-! ### Commands in a row (R164) -/

/-- `s` after commands that ended OK with these payloads, of which the last wrote `LASTST`. -/
def endedAllOk (ps : List Bytes) (s : State) : State :=
  { s with lastSt := 0x00, responses := s.responses ++ ps.map (0x00 :: ·) }

theorem endedOk_eq_endedAllOk (p : Bytes) (s : State) : endedOk p s = endedAllOk [p] s := rfl

theorem endedOk_endedAllOk (p : Bytes) (ps : List Bytes) (s : State) :
    endedOk p (endedAllOk ps s) = endedAllOk (ps ++ [p]) s := by
  simp [endedOk, endedAllOk]

@[simp] theorem endedAllOk_responses (ps : List Bytes) (s : State) :
    (endedAllOk ps s).responses = s.responses ++ ps.map (0x00 :: ·) := rfl

/-- One command in place of several: the register effect is the same, only the responses are others. -/
theorem endedOk_eq_endedAllOk_with (p : Bytes) (ps : List Bytes) (s : State) :
    endedOk p s = { endedAllOk ps s with responses := (endedOk p s).responses } := rfl

/-- The cipher does not read what the epilogues before it wrote. -/
theorem clockBits_endedAllOk (e : Bool) (bs : Bits) (ps : List Bytes) (s : State) :
    clockBits e bs (endedAllOk ps s) = ((clockBits e bs s).1, endedAllOk ps (clockBits e bs s).2) := by
  induction bs generalizing s with
  | nil => rfl
  | cons b bs ih =>
    have hclock : (clock b e (endedAllOk ps s)).2 = endedAllOk ps (clock b e s).2 := rfl
    rw [clockBits_cons, hclock, ih]
    rfl

theorem clockByte_endedAllOk (e : Bool) (b : Byte) (ps : List Bytes) (s : State) :
    clockByte e b (endedAllOk ps s) = ((clockByte e b s).1, endedAllOk ps (clockByte e b s).2) := by
  simp only [clockByte, clockBits_endedAllOk]

/-- C1_BIT on each bit of a sequence, after other commands that ended OK. -/
theorem execAll_c1Bit_endedAllOk (m : Bool) (bs : Bits) (ps : List Bytes) {s : State} (hk : s.keyed = true) :
    execAll (bs.map fun b => .c1Bit m (bitByte b)) (endedAllOk ps s) =
      some (endedAllOk (ps ++ (clockBits m bs s).1.map fun k => [bitByte k]) (clockBits m bs s).2) := by
  induction bs generalizing ps s with
  | nil => simp [execAll]
  | cons b bs ih =>
    have hclock : (clock b m (endedAllOk ps s)).2 = endedAllOk ps (clock b m s).2 := rfl
    have hks : filter (endedAllOk ps s).lfsr = filter s.lfsr := rfl
    have hk' : (clock b m s).2.keyed = true := hk
    rw [List.map_cons, execAll_cons_of_next (exec_c1Bit_keyed (s := endedAllOk ps s) hk m b), hclock, hks,
      endedOk_endedAllOk, ih _ hk', clockBits_cons, List.map_cons, List.append_assoc]
    rfl

/-- C1_BIT on each bit of a sequence clocks the sequence, and each answers its keystream bit. -/
theorem execAll_c1Bit (m : Bool) {bs : Bits} (hne : bs ≠ []) {s : State} (hk : s.keyed = true) :
    execAll (bs.map fun b => .c1Bit m (bitByte b)) s =
      some (endedAllOk ((clockBits m bs s).1.map fun k => [bitByte k]) (clockBits m bs s).2) := by
  obtain ⟨b, bs, rfl⟩ := List.exists_cons_of_ne_nil hne
  have hk' : (clock b m s).2.keyed = true := hk
  rw [List.map_cons, execAll_cons_of_next (exec_c1Bit_keyed hk m b), endedOk_eq_endedAllOk,
    execAll_c1Bit_endedAllOk m bs _ hk']
  rfl

theorem map_bitsOf {α : Type} {w : Nat} (f : Bool → α) (n : Nat) (v : BitVec w) :
    (bitsOf n v).map f = (List.range n).map fun i => f (v.getLsbD i) :=
  List.map_map

/-- At most eight bits are the low bits of the byte they assemble. -/
theorem bitsOf_byteOfBits_of_le {n : Nat} {bs : Bits} (hlen : bs.length = n) (hn : n ≤ 8) :
    bitsOf n (byteOfBits bs) = bs := by
  refine List.ext_getElem (by simp [hlen]) fun i hi hi' => ?_
  have hbit : (byteOfBits bs).getLsbD i = bs[i] := by
    rw [byteOfBits_getLsbD bs i (by omega), List.getD_eq_getElem _ _ hi']
  simpa [bitsOf] using hbit

/-- C1_BIT on the low `n` bits of a byte clocks them, and answers the bits of the byte that their keystream assembles; a single
command in its place would leave the same registers. -/
theorem execAll_c1Bit_bitsOf (m : Bool) (v : Byte) {n : Nat} (hpos : 0 < n) (hn : n ≤ 8) {s : State}
    (hk : s.keyed = true) :
    let r := clockBits m (bitsOf n v) s
    ∃ u : State, execAll ((List.range n).map fun i => .c1Bit m (bitByte (v.getLsbD i))) s = some u ∧
      u.responses = s.responses ++ (List.range n).map (fun i => [0x00, bitByte ((byteOfBits r.1).getLsbD i)]) ∧
      ∀ p, endedOk p r.2 = { u with responses := (endedOk p r.2).responses } := by
  intro r
  have hne : bitsOf n v ≠ [] := List.ne_nil_of_length_pos (by simpa using hpos)
  have hks : bitsOf n (byteOfBits r.1) = r.1 := bitsOf_byteOfBits_of_le (by simp [r]) hn
  refine ⟨_, map_bitsOf _ n v ▸ execAll_c1Bit m hne hk, ?_, fun p => endedOk_eq_endedAllOk_with p _ r.2⟩
  rw [endedAllOk_responses, (clockBits_clockedBy m (bitsOf n v) s).responses, List.map_map,
    ← map_bitsOf (fun k => [0x00, bitByte k]), hks]
  rfl

/-- Settles O45: the byte that the four keystream bits assemble holds them in its low bits. -/
theorem nibbleIsFourBits : Obligations.NibbleIsFourBits := by
  intro m v s hk hv
  obtain ⟨u, hrun, hresponses, hregisters⟩ := execAll_c1Bit_bitsOf m v (n := 4) (by decide) (by decide) hk
  have hclocked := clockBits_clockedBy m (bitsOf 4 v) s
  have hks : bitsOf 4 (byteOfBits (clockBits m (bitsOf 4 v) s).1) = (clockBits m (bitsOf 4 v) s).1 :=
    bitsOf_byteOfBits_of_le (by simp) (by decide)
  refine ⟨_, u, (byteOfBits (clockBits m (bitsOf 4 v) s).1).getLsbD, exec_c1Nibble_keyed hk m hv, hclocked.clkcnt, ?_,
    hrun, hresponses, hregisters _⟩
  rw [endedOk_responses, hclocked.responses]
  exact congrArg (fun ks => s.responses ++ [[0x00, byteOfBits ks]]) hks.symm

/-- Settles O46: the byte that C1_BYTE returns is the one the eight keystream bits assemble. -/
theorem byteIsEightBits : Obligations.ByteIsEightBits := by
  intro m v s hk
  obtain ⟨u, hrun, hresponses, hregisters⟩ := execAll_c1Bit_bitsOf m v (n := 8) (by decide) (by decide) hk
  have hclocked := clockByte_clockedBy m v s
  have hbyte := exec_c1Byte_keyed hk m v
  rw [clockByte] at hclocked hbyte
  refine ⟨_, u, byteOfBits (clockBits m (bitsOf 8 v) s).1, hbyte, hclocked.clkcnt, ?_, hrun, hresponses, hregisters _⟩
  rw [endedOk_responses, hclocked.responses]

/-- C1_BYTE after other commands that ended OK. -/
theorem exec_c1Byte_endedAllOk (m : Bool) (v : Byte) (ps : List Bytes) {s : State} (hk : s.keyed = true) :
    exec (.c1Byte m v) (endedAllOk ps s) =
      .next (endedAllOk (ps ++ [[(clockByte m v s).1]]) (clockByte m v s).2) := by
  rw [exec_c1Byte_keyed (s := endedAllOk ps s) hk, clockByte_endedAllOk, endedOk_endedAllOk]

@[simp] theorem clockBytes_nil (e : Bool) (s : State) : clockBytes e [] s = ([], s) := rfl

theorem clockBytes_cons (e : Bool) (b : Byte) (bs : Bytes) (s : State) :
    clockBytes e (b :: bs) s =
      ((clockByte e b s).1 :: (clockBytes e bs (clockByte e b s).2).1, (clockBytes e bs (clockByte e b s).2).2) := rfl

/-- Settles O47: the word clocks the four bytes as the four commands do. -/
theorem wordIsFourBytes : Obligations.WordIsFourBytes := by
  intro m w0 w1 w2 w3 s hk
  have hkeyed (v : Byte) {x : State} (hx : x.keyed = true) : (clockByte m v x).2.keyed = true :=
    (clockByte_clockedBy m v x).keyed.trans hx
  have hword := exec_c1Word_keyed hk m w0 w1 w2 w3
  have hclocked := clockBytes_clockedBy m [w0, w1, w2, w3] s
  simp only [clockBytes_cons, clockBytes_nil] at hword hclocked
  have hrun0 := exec_c1Byte_keyed hk m w0
  have hk0 := hkeyed w0 hk
  generalize clockByte m w0 s = r0 at *
  have hrun1 := exec_c1Byte_endedAllOk m w1 [[r0.1]] hk0
  have hk1 := hkeyed w1 hk0
  generalize clockByte m w1 r0.2 = r1 at *
  have hrun2 := exec_c1Byte_endedAllOk m w2 [[r0.1], [r1.1]] hk1
  have hk2 := hkeyed w2 hk1
  generalize clockByte m w2 r1.2 = r2 at *
  have hrun3 := exec_c1Byte_endedAllOk m w3 [[r0.1], [r1.1], [r2.1]] hk2
  generalize clockByte m w3 r2.2 = r3 at *
  refine ⟨_, endedAllOk [[r0.1], [r1.1], [r2.1], [r3.1]] r3.2, r0.1, r1.1, r2.1, r3.1, hword, hclocked.clkcnt,
    ?word, ?run, ?bytes, endedOk_eq_endedAllOk_with _ _ _⟩
  case word => rw [endedOk_responses, hclocked.responses]
  case run =>
    rw [execAll_cons_of_next hrun0, endedOk_eq_endedAllOk, execAll_cons_of_next hrun1]
    exact (execAll_cons_of_next hrun2 _).trans (execAll_cons_of_next hrun3 _)
  case bytes =>
    rw [endedAllOk_responses, hclocked.responses]
    rfl

/-! ### C1_ENC_BYTE and C1_DEC_BYTE (R148, R158, R159) -/

/-- The feedback inputs of an operand are its bits in mode 1 and those of 0 in mode 0. -/
theorem feedbackInputs_bitsOf (m : Bool) (x : Byte) :
    feedbackInputs m (bitsOf 8 x) = bitsOf 8 (if m then x else 0x00) := by
  cases m with
  | false => rw [feedbackInputs_false, bitsOf_length, if_neg Bool.false_ne_true]; decide
  | true => exact feedbackInputs_true _

section Keyed

variable {s : State} (hk : s.keyed = true)
include hk

theorem exec_c1EncByte_keyed (m : Bool) (x : Byte) :
    let r := clockByte false (if m then x else 0x00) s
    exec (.c1EncByte m x) s = .next (endedOk [x ^^^ r.1, r.1] r.2) := by
  rw [clockByte, ← feedbackInputs_bitsOf]
  exact require_keyed hk _

theorem exec_c1DecByte_keyed (m : Bool) (x : Byte) :
    let r := clockByte m (if m then x else 0x00) s
    exec (.c1DecByte m x) s = .next (endedOk [x ^^^ r.1, r.1] r.2) := by
  rw [clockByte, ← feedbackInputs_bitsOf]
  exact require_keyed hk _

end Keyed

/-- Settles O48: each command responds from the same byte of clock steps. -/
theorem encDecByteAreByteClocks : Obligations.EncDecByteAreByteClocks :=
  fun m x _ hk =>
    ⟨⟨_, _, exec_c1Byte_keyed hk false _, exec_c1EncByte_keyed hk m x⟩,
      ⟨_, _, exec_c1Byte_keyed hk m _, exec_c1DecByte_keyed hk m x⟩⟩

/-- XOR is bit by bit. -/
theorem bitsOf_xor {w : Nat} (n : Nat) (x y : BitVec w) :
    bitsOf n (x ^^^ y) = List.zipWith xor (bitsOf n x) (bitsOf n y) := by
  simp [bitsOf, List.zipWith_map]

/-- R148: a receiver with the sender's register, fed the sender's ciphertext byte, has the sender's keystream byte and keeps the
same register. -/
theorem clockByte_receiver (m : Bool) (p : Byte) {s u : State} (h : s.lfsr = u.lfsr) :
    let k := clockByte false (if m then p else 0x00) s
    let q := clockByte m (if m then p ^^^ k.1 else 0x00) u
    q.1 = k.1 ∧ q.2.lfsr = k.2.lfsr := by
  have hcipher : bitsOf 8 (p ^^^ byteOfBits (clockBits false (feedbackInputs m (bitsOf 8 p)) s).1) =
      List.zipWith xor (bitsOf 8 p) (clockBits false (feedbackInputs m (bitsOf 8 p)) s).1 := by
    rw [bitsOf_xor, bitsOf_byteOfBits _ (by simp)]
  obtain ⟨hks, hlfsr⟩ := clockBits_receiver m (bitsOf 8 p) h
  simp only [clockByte, ← feedbackInputs_bitsOf, hcipher]
  exact ⟨congrArg byteOfBits hks, hlfsr⟩

/-- Settles O49: XOR with the same keystream byte twice leaves the plaintext. -/
theorem decByteUndoesEncByte : Obligations.DecByteUndoesEncByte := by
  intro m p s u hks hku h
  have hsent := exec_c1EncByte_keyed hks m p
  have hs := (clockByte_clockedBy false (if m then p else 0x00) s).responses
  obtain ⟨hkeystream, hlfsr⟩ := clockByte_receiver m p h
  generalize clockByte false (if m then p else 0x00) s = k at *
  have hreceived := exec_c1DecByte_keyed hku m (p ^^^ k.1)
  have hu := (clockByte_clockedBy m (if m then p ^^^ k.1 else 0x00) u).responses
  generalize clockByte m (if m then p ^^^ k.1 else 0x00) u = q at *
  refine ⟨_, _, p ^^^ k.1, k.1, hsent, ?_, hreceived, ?_, hlfsr⟩
  · rw [endedOk_responses, hs]
  · rw [endedOk_responses, hu, hkeystream, BitVec.xor_assoc, BitVec.xor_self, BitVec.xor_zero]

end Sys2Proof.Machine

/-! SUPPORT. The encrypted frame family (43_crypto_frames.md): the checks of CF_ENC and CF_DEC, splitting a frame, what a
receiver reads from one, and both commands as a byte command and C1_PEEK for each byte. -/

namespace Sys2Proof.Machine

open Sys2Proof.Safety

/-! ### CF_ENC (R180 to R182) -/

/-- CF_ENC, its checks in order (R182). -/
theorem exec_cfEnc (m : Bool) (ctl : Byte) (d : Bytes) (s : State) :
    exec (.cfEnc m ctl d) s =
      if ctl &&& 0xFE ≠ 0 then .next (endedWith 0x02 s)
      else if d.length = 0 ∨ d.length + (if crcFlag ctl then 2 else 0) > 32 then .next (endedWith 0x03 s)
      else if s.keyed = false then .next (endedWith 0x04 s)
      else .next (endedOk (stream (encryptFrame m (withCrc (crcFlag ctl) d) s).1)
        (encryptFrame m (withCrc (crcFlag ctl) d) s).2) := by
  change require _ .reserved s (require _ .length s (require s.keyed .notKeyed s (respond _ _))) = _
  rw [require_eq_ite (by decide) (reservedClear_iff _ ctl), require_eq_ite (by decide) (encodeRange_iff _ _),
    require_keyed_eq_ite, respond_endedOk]
  rfl

/-- The bytes of a frame, its CRC_A counted when the flag asks for it. -/
theorem withCrc_length_ite (c : Bool) (d : Bytes) : (withCrc c d).length = d.length + (if c then 2 else 0) := by
  rw [withCrc_length]
  cases c <;> rfl

section InRange

variable {d : Bytes} (hpos : 1 ≤ d.length)
include hpos

/-- CF_ENC past its checks of the operands: KEYED alone is left. -/
theorem exec_cfEnc_in_range (m : Bool) {ctl : Byte} (hctl : ctl &&& 0xFE = 0)
    (hle : d.length + (if crcFlag ctl then 2 else 0) ≤ 32) (s : State) :
    exec (.cfEnc m ctl d) s =
      if s.keyed = false then .next (endedWith 0x04 s)
      else .next (endedOk (stream (encryptFrame m (withCrc (crcFlag ctl) d) s).1)
        (encryptFrame m (withCrc (crcFlag ctl) d) s).2) := by
  rw [exec_cfEnc, if_neg (not_ne_iff.mpr hctl), if_neg (by omega)]

/-- CF_ENC past all of its checks. -/
theorem exec_cfEnc_keyed (m : Bool) {ctl : Byte} (hctl : ctl &&& 0xFE = 0)
    (hle : d.length + (if crcFlag ctl then 2 else 0) ≤ 32) {s : State} (hk : s.keyed = true) :
    exec (.cfEnc m ctl d) s = .next (endedOk (stream (encryptFrame m (withCrc (crcFlag ctl) d) s).1)
      (encryptFrame m (withCrc (crcFlag ctl) d) s).2) := by
  rw [exec_cfEnc_in_range hpos m hctl hle, if_neg (by simp [hk])]

/-- CF_ENC without CRC encrypts the data as they are. -/
theorem exec_cfEnc_plain (m : Bool) (hle : d.length ≤ 32) {s : State} (hk : s.keyed = true) :
    exec (.cfEnc m 0x00 d) s = .next (endedOk (stream (encryptFrame m d s).1) (encryptFrame m d s).2) :=
  exec_cfEnc_keyed hpos m (ctl := 0x00) (by decide) hle hk

end InRange

/-- Settles O50: an encrypted frame is 9 bits and 8 clock steps for each byte. -/
theorem cfEncResult : Obligations.CfEncResult := by
  intro m ctl d s hctl hpos hle hk
  have hlen : (withCrc (crcFlag ctl) d).length = d.length + (if ctl.getLsbD 0 then 2 else 0) := withCrc_length_ite _ d
  have hclocked := encryptFrame_clockedBy m (withCrc (crcFlag ctl) d) s
  have hbits := encryptFrame_length m (withCrc (crcFlag ctl) d) s
  rw [hlen] at hclocked hbits
  have hexec := exec_cfEnc_keyed hpos m hctl hle hk
  rw [hclocked] at hexec
  exact ⟨_, _, hexec, hbits⟩

/-- Settles O52: past the same check of KEYED, both encrypt the data followed by their CRC_A. -/
theorem cfEncCrcOverPlaintext : Obligations.CfEncCrcOverPlaintext := by
  intro m d s hpos hle
  have hcrc := exec_cfEnc_in_range hpos m (ctl := 0x01) (by decide) (Nat.add_le_add_right hle 2) s
  have hplain := exec_cfEnc_in_range (d := withCrc true d) (by rw [withCrc_length]; omega) m (ctl := 0x00) (by decide)
    (by rw [withCrc_length]; exact Nat.add_le_add_right hle 2) s
  exact hcrc.trans hplain.symm

/-! ### Splitting an encrypted frame (R183) -/

/-- Encrypting a concatenation is encrypting its parts in order. -/
theorem encryptFrame_append (m : Bool) (a b : Bytes) (s : State) :
    encryptFrame m (a ++ b) s =
      ((encryptFrame m a s).1 ++ (encryptFrame m b (encryptFrame m a s).2).1,
        (encryptFrame m b (encryptFrame m a s).2).2) := by
  induction a generalizing s with
  | nil => rfl
  | cons x a ih => simp only [List.cons_append, encryptFrame_cons, ih, List.append_assoc]

@[simp] theorem endedAllOk_lfsr (ps : List Bytes) (s : State) : (endedAllOk ps s).lfsr = s.lfsr := rfl
@[simp] theorem endedAllOk_keyed (ps : List Bytes) (s : State) : (endedAllOk ps s).keyed = s.keyed := rfl

/-- An encrypted frame does not depend on what the epilogues before it wrote. -/
theorem encryptFrame_endedAllOk (m : Bool) (d : Bytes) (ps : List Bytes) (s : State) :
    encryptFrame m d (endedAllOk ps s) = ((encryptFrame m d s).1, endedAllOk ps (encryptFrame m d s).2) := by
  have hbyte (b : Byte) (s : State) :
      encryptByte m b (endedAllOk ps s) = ((encryptByte m b s).1, endedAllOk ps (encryptByte m b s).2) := by
    simp only [encryptByte, clockBits_endedAllOk, endedAllOk_lfsr]
  induction d generalizing s with
  | nil => rfl
  | cons b d ih => simp only [encryptFrame_cons, hbyte, ih]

/-- Settles O53: the second command goes on from the register that the first one left. -/
theorem splittingLaw : Obligations.SplittingLaw := by
  intro m a b s hk ha hb hle
  have hab := exec_cfEnc_plain (d := a ++ b) (by rw [List.length_append]; omega) m
    (by rw [List.length_append]; exact hle) hk
  rw [encryptFrame_append] at hab
  have hfirst := exec_cfEnc_plain ha m (by omega) hk
  have hclocked := encryptFrame_clockedBy m a s
  have hx := encryptFrame_length m a s
  generalize encryptFrame m a s = r at *
  have hsecond := exec_cfEnc_plain (s := endedAllOk [stream r.1] r.2) hb m (by omega) (hclocked.keyed.trans hk)
  rw [encryptFrame_endedAllOk, endedOk_endedAllOk] at hsecond
  have hclocked' := hclocked.trans (encryptFrame_clockedBy m b r.2)
  have hlen := encryptFrame_length m b r.2
  generalize encryptFrame m b r.2 = q at *
  refine ⟨_, endedAllOk [stream r.1, stream q.1] q.2, r.1, q.1, hx, hlen, hab, ?whole, ?run, ?parts,
    endedOk_eq_endedAllOk_with _ _ _⟩
  case whole => rw [endedOk_responses, hclocked'.responses]
  case run =>
    rw [execAll_cons_of_next hfirst, endedOk_eq_endedAllOk]
    exact execAll_cons_of_next hsecond _
  case parts =>
    rw [endedAllOk_responses, hclocked'.responses]
    rfl

/-! ### An encrypted byte from its clock steps (R181, R184) -/

/-- One byte of an encrypted frame: the bits of the ciphertext byte, and the odd parity XOR the next keystream bit. -/
theorem encryptByte_eq (m : Bool) (b : Byte) (s : State) :
    let k := clockByte false (if m then b else 0x00) s
    encryptByte m b s = (bitsOf 8 (b ^^^ k.1) ++ [oddpar b ^^ filter k.2.lfsr], k.2) := by
  simp only [clockByte, ← feedbackInputs_bitsOf, bitsOf_xor]
  rw [bitsOf_byteOfBits _ (by simp)]
  rfl

/-- One received byte: the plaintext byte, and whether its parity bit is the odd parity XOR the next keystream bit. -/
theorem decryptByte_eq (m : Bool) (c : Byte) (p : Bool) (u : State) :
    let k := clockByte m (if m then c else 0x00) u
    decryptByte m (bitsOf 8 c, p) u =
      ((c ^^^ k.1, (p ^^ filter k.2.lfsr) == oddpar (c ^^^ k.1)), k.2) := by
  have hplain : byteOfBits (List.zipWith xor (bitsOf 8 c) (clockBits m (feedbackInputs m (bitsOf 8 c)) u).1) =
      c ^^^ byteOfBits (clockBits m (feedbackInputs m (bitsOf 8 c)) u).1 := by
    rw [← byteOfBits_bitsOf (c ^^^ _), bitsOf_xor, bitsOf_byteOfBits _ (by simp)]
  simp only [clockByte, ← feedbackInputs_bitsOf, ← hplain]
  rfl

/-! ### CF_DEC (R184, R185) -/

/-- The bytes that CF_DEC reads with their parity verdicts, and the state after their clock steps. -/
def receivedFrame (m : Bool) (nb : BitVec 16) (bits : Bytes) (s : State) : List (Byte × Bool) × State :=
  decryptFrame m (frameGroups (nb.toNat / 9) (unpackBits nb.toNat bits)) s

/-- A received frame of whole groups is 8 clock steps for each of its bytes. -/
theorem receivedFrame_clockedBy (m : Bool) (nb : BitVec 16) (bits : Bytes) (s : State) :
    ClockedBy (8 * (nb.toNat / 9)) s (receivedFrame m nb bits s).2 := by
  have h := decryptFrame_clockedBy m (frameGroups (nb.toNat / 9) (unpackBits nb.toNat bits)) s
    (frameGroups_data_length _ _ (by rw [unpackBits_length]; omega))
  rwa [frameGroups_length] at h

/-- CF_DEC past the checks before its clock steps: PARITY, then CRC, both discarding the cipher, then OK. -/
theorem exec_cfDec_keyed (m : Bool) {ctl : Byte} (hctl : ctl &&& 0xFE = 0) {nb : BitVec 16}
    (hnb : decodeRange (crcFlag ctl) nb.toNat = true) (bits : Bytes) {s : State} (hk : s.keyed = true) :
    let r := receivedFrame m nb bits s
    let d := r.1.map Prod.fst
    exec (.cfDec m ctl nb bits) s =
      if r.1.all Prod.snd = false then .next (endedWith 0x05 (discard s))
      else if crcFlag ctl = true ∧ crcOk d = false then .next (endedWith 0x06 (discard s))
      else .next (endedOk (framePayload (crcFlag ctl) d) r.2) := by
  intro r d
  have hdiscard : discard r.2 = discard s := (receivedFrame_clockedBy m nb bits s).discard_eq
  change require (reservedClear 0xFE ctl) .reserved s (require (decodeRange _ _) .length s (require s.keyed .notKeyed s
    (require (r.1.all Prod.snd) .parity (discard r.2) (require (!crcFlag ctl || crcOk d) .crc (discard r.2)
      (respond _ r.2))))) = _
  rw [(reservedClear_iff _ ctl).mpr (not_ne_iff.mpr hctl), require_true, hnb, require_true,
    require_keyed hk, hdiscard,
    require_eq_ite (st := .parity) (p := r.1.all Prod.snd = false) (by decide) (by simp),
    require_eq_ite (st := .crc) (p := crcFlag ctl = true ∧ crcOk d = false) (by decide) (by cases crcFlag ctl <;> simp),
    respond_endedOk]
  rfl

/-! ### The receiver of an encrypted frame (R186) -/

/-- The groups of a frame that begins with one byte's nine bits. -/
theorem frameGroups_succ_append {bs : Bits} (h : bs.length = 8) (p : Bool) (n : Nat) (t : Bits) :
    frameGroups (n + 1) (bs ++ [p] ++ t) = (bs, p) :: frameGroups n t := by
  simp [frameGroups_succ, h, List.drop_append, List.drop_eq_nil_of_le]

/-- A receiver with the sender's register reads the sender's bytes, finds every parity bit right and keeps the same register. -/
theorem decryptFrame_encryptFrame (m : Bool) (d : Bytes) {s u : State} (h : s.lfsr = u.lfsr) :
    let r := decryptFrame m (frameGroups d.length (encryptFrame m d s).1) u
    r.1 = d.map (fun b => (b, true)) ∧ r.2.lfsr = (encryptFrame m d s).2.lfsr := by
  induction d generalizing s u with
  | nil => exact ⟨rfl, h.symm⟩
  | cons b d ih =>
    obtain ⟨hks, hlfsr⟩ := clockByte_receiver m b h
    simp only [encryptFrame_cons, encryptByte_eq, List.length_cons, frameGroups_succ_append (bitsOf_length 8 _),
      decryptFrame_cons, decryptByte_eq]
    obtain ⟨hbytes, hregister⟩ := ih hlfsr.symm
    refine ⟨?_, hregister⟩
    rw [hbytes, hks, hlfsr]
    simp

section RoundTrip

variable {c : Bool} {d : Bytes} (hpos : 1 ≤ d.length) (hle : d.length + (if c then 2 else 0) ≤ 32)
include hpos hle

/-- CF_DEC on the encrypted frame of a string in range: the data come back, and the register is the sender's. -/
theorem exec_cfDec_encryptFrame (m : Bool) {s u : State} (hk : u.keyed = true) (h : s.lfsr = u.lfsr) {nb : BitVec 16}
    (hnb : nb.toNat = 9 * (withCrc c d).length) :
    let e := encryptFrame m (withCrc c d) s
    ∃ x : State, exec (.cfDec m (bitByte c) nb (packBits e.1)) u = .next (endedOk d x) ∧
      ClockedBy (8 * (nb.toNat / 9)) u x ∧ x.lfsr = e.2.lfsr := by
  intro e
  have hframe : e.1.length = 9 * (withCrc c d).length := encryptFrame_length m (withCrc c d) s
  have hcount : nb.toNat = 9 * (d.length + (if c then 2 else 0)) := by rw [hnb, withCrc_length_ite]
  have hrange : decodeRange (crcFlag (bitByte c)) nb.toNat = true := by
    rw [crcFlag_bitByte, decodeRange_iff]
    cases c <;> simp at hcount hle ⊢ <;> omega
  obtain ⟨hread, hlfsr⟩ := decryptFrame_encryptFrame m (withCrc c d) h
  have hreceived : receivedFrame m nb (packBits e.1) u = decryptFrame m (frameGroups (withCrc c d).length e.1) u := by
    rw [receivedFrame, hnb, ← hframe, unpackBits_packBits, hframe, Nat.mul_div_cancel_left _ (by decide)]
  have hbytes : ((withCrc c d).map fun b => (b, true)).map Prod.fst = withCrc c d := by simp [Function.comp_def]
  have hcrc : ¬(c = true ∧ crcOk (withCrc c d) = false) := by
    rintro ⟨rfl, hwrong⟩
    exact absurd (crcOk_withCrc d) (Bool.not_eq_true _ ▸ hwrong)
  have hclocked := receivedFrame_clockedBy m nb (packBits e.1) u
  have hexec := exec_cfDec_keyed m (bitByte_reserved c) hrange (packBits e.1) hk
  simp only [hreceived, e, hread, hbytes, crcFlag_bitByte] at hexec hclocked
  rw [if_neg (by simp), if_neg hcrc, framePayload_withCrc] at hexec
  exact ⟨_, hexec, hclocked, hlfsr⟩

end RoundTrip

/-- Settles O54: the stream is read back as the frame's bits, and the receiver's register follows the sender's byte by byte. -/
theorem encryptedRoundTrip : Obligations.EncryptedRoundTrip := by
  intro m c d s u hks hku h hpos hle
  have hlen := encryptFrame_length m (withCrc c d) s
  have hsent := exec_cfEnc_keyed hpos m (bitByte_reserved c) (by rwa [crcFlag_bitByte]) hks
  have hclocked := encryptFrame_clockedBy m (withCrc c d) s
  have hbound := withCrc_length_ite c d
  obtain ⟨x, hreceived, hx, hlfsr⟩ := exec_cfDec_encryptFrame hpos hle m hku h
    (nb := BitVec.ofNat 16 (encryptFrame m (withCrc c d) s).1.length) (by rw [stream_count _ (by omega), hlen])
  rw [crcFlag_bitByte] at hsent
  rw [← u16OfBytes_u16Bytes (BitVec.ofNat 16 _)] at hreceived
  rw [← bitByte_eq_ite]
  refine ⟨_, _, _, _, _, hsent, ?stream, hreceived, ?payload, hlfsr, hx.keyed.trans hku⟩
  case stream => rw [endedOk_responses, hclocked.responses, stream_eq_cons]
  case payload => rw [endedOk_responses, hx.responses]

/-! ### A byte command and C1_PEEK for each byte (R188) -/

/-- For each byte of a string, the XOR of the byte with its keystream byte, the keystream byte, and the next keystream bit, which
is not clocked; and the state after the bytes' clock steps. -/
def bytesAndPeeks (e m : Bool) : Bytes → State → List (Byte × Byte × Bool) × State
  | [], s => ([], s)
  | x :: xs, s =>
    let k := clockByte e (if m then x else 0x00) s
    let q := bytesAndPeeks e m xs k.2
    ((x ^^^ k.1, k.1, filter k.2.lfsr) :: q.1, q.2)

@[simp] theorem bytesAndPeeks_nil (e m : Bool) (s : State) : bytesAndPeeks e m [] s = ([], s) := rfl

theorem bytesAndPeeks_cons (e m : Bool) (x : Byte) (xs : Bytes) (s : State) :
    let k := clockByte e (if m then x else 0x00) s
    bytesAndPeeks e m (x :: xs) s =
      ((x ^^^ k.1, k.1, filter k.2.lfsr) :: (bytesAndPeeks e m xs k.2).1, (bytesAndPeeks e m xs k.2).2) := rfl

@[simp] theorem bytesAndPeeks_length (e m : Bool) (xs : Bytes) (s : State) :
    (bytesAndPeeks e m xs s).1.length = xs.length := by
  induction xs generalizing s with
  | nil => rfl
  | cons x xs ih => simp [bytesAndPeeks_cons, ih]

theorem bytesAndPeeks_clockedBy (e m : Bool) (xs : Bytes) (s : State) :
    ClockedBy (8 * xs.length) s (bytesAndPeeks e m xs s).2 := by
  induction xs generalizing s with
  | nil => exact .zero s
  | cons x xs ih =>
    rw [List.length_cons, Nat.mul_add, Nat.add_comm]
    exact (clockByte_clockedBy e _ s).trans (ih _)

/-- The payloads of a byte command and the C1_PEEK after it. -/
def peekedPayloads (r : Byte × Byte × Bool) : List Bytes :=
  [[r.1, r.2.1], [bitByte r.2.2]]

/-- A command that clocks its operand in the mode `m`, and answers the operand XOR its keystream byte and that byte. -/
def ClocksByte (e m : Bool) (cmd : Byte → Instr) : Prop :=
  ∀ (x : Byte) (s : State), s.keyed = true →
    let k := clockByte e (if m then x else 0x00) s
    exec (cmd x) s = .next (endedOk [x ^^^ k.1, k.1] k.2)

theorem c1EncByte_clocksByte (m : Bool) : ClocksByte false m (.c1EncByte m) :=
  fun x _ hk => exec_c1EncByte_keyed hk m x

theorem c1DecByte_clocksByte (m : Bool) : ClocksByte m m (.c1DecByte m) :=
  fun x _ hk => exec_c1DecByte_keyed hk m x

theorem endedAllOk_endedAllOk (ps qs : List Bytes) (s : State) :
    endedAllOk qs (endedAllOk ps s) = endedAllOk (ps ++ qs) s := by
  simp [endedAllOk]

section ByteAndPeek

variable {e m : Bool} {cmd : Byte → Instr} (hcmd : ClocksByte e m cmd)
include hcmd

theorem execAll_byteAndPeek (x : Byte) {s : State} (hk : s.keyed = true) :
    let k := clockByte e (if m then x else 0x00) s
    execAll [cmd x, .c1Peek] s = some (endedAllOk (peekedPayloads (x ^^^ k.1, k.1, filter k.2.lfsr)) k.2) := by
  intro k
  have hbyte : exec (cmd x) s = .next (endedOk [x ^^^ k.1, k.1] k.2) := hcmd x s hk
  have hpeek := exec_c1Peek_keyed (s := endedAllOk [[x ^^^ k.1, k.1]] k.2)
    (by rw [endedAllOk_keyed, (clockByte_clockedBy e _ s).keyed, hk])
  rw [execAll_cons_of_next hbyte, endedOk_eq_endedAllOk, execAll_cons_of_next hpeek, endedOk_endedAllOk, endedAllOk_lfsr]
  rfl

/-- The command and C1_PEEK on each byte of a string, after other commands that ended OK. -/
theorem execAll_bytesAndPeeks_endedAllOk (xs : Bytes) (ps : List Bytes) {s : State} (hk : s.keyed = true) :
    execAll (xs.flatMap fun x => [cmd x, .c1Peek]) (endedAllOk ps s) =
      some (endedAllOk (ps ++ (bytesAndPeeks e m xs s).1.flatMap peekedPayloads) (bytesAndPeeks e m xs s).2) := by
  induction xs generalizing ps s with
  | nil => simp [execAll]
  | cons x xs ih =>
    have hk' := (clockByte_clockedBy e (if m then x else 0x00) s).keyed.trans hk
    have hfirst := execAll_byteAndPeek hcmd x (s := endedAllOk ps s) hk
    simp only [clockByte_endedAllOk, endedAllOk_endedAllOk] at hfirst
    rw [List.flatMap_cons, execAll_append_of_some hfirst, ih _ hk', bytesAndPeeks_cons, List.flatMap_cons,
      List.append_assoc]
    rfl

/-- The command and C1_PEEK on each byte of a string clock the string; a single command in their place would leave the same
registers. -/
theorem execAll_bytesAndPeeks {xs : Bytes} (hpos : 1 ≤ xs.length) {s : State} (hk : s.keyed = true) :
    let r := bytesAndPeeks e m xs s
    ∃ u : State, execAll (xs.flatMap fun x => [cmd x, .c1Peek]) s = some u ∧
      u.responses = s.responses ++ r.1.flatMap (fun q => [[0x00, q.1, q.2.1], [0x00, bitByte q.2.2]]) ∧
      u.lfsr = r.2.lfsr ∧ ∀ p, endedOk p r.2 = { u with responses := (endedOk p r.2).responses } := by
  intro r
  refine ⟨endedAllOk (r.1.flatMap peekedPayloads) r.2, ?run, ?responses, rfl, fun p => endedOk_eq_endedAllOk_with p _ r.2⟩
  case run =>
    obtain ⟨x, xs, rfl⟩ := List.exists_cons_of_length_pos hpos
    have hk' := (clockByte_clockedBy e (if m then x else 0x00) s).keyed.trans hk
    rw [List.flatMap_cons, execAll_append_of_some (execAll_byteAndPeek hcmd x hk),
      execAll_bytesAndPeeks_endedAllOk hcmd xs _ hk']
    rfl
  case responses =>
    rw [endedAllOk_responses, (bytesAndPeeks_clockedBy e m xs s).responses, List.map_flatMap]
    rfl

end ByteAndPeek

/-- An encrypted frame from what C1_ENC_BYTE and C1_PEEK answer for each byte. -/
theorem encryptFrame_eq (m : Bool) (d : Bytes) (s : State) :
    let r := bytesAndPeeks false m d s
    encryptFrame m d s =
      ((d.zip r.1).flatMap (fun q => bitsOf 8 q.2.1 ++ [oddpar q.1 ^^ q.2.2.2]), r.2) := by
  induction d generalizing s with
  | nil => rfl
  | cons b d ih =>
    simp only [encryptFrame_cons, encryptByte_eq, ih, bytesAndPeeks_cons, List.zip_cons_cons, List.flatMap_cons]

/-- Settles O51: the frame and the commands clock the same bytes. -/
theorem cfEncFromPrimitives : Obligations.CfEncFromPrimitives := by
  intro m d s hpos hle hk
  obtain ⟨u, hrun, hresponses, _, hregisters⟩ := execAll_bytesAndPeeks (c1EncByte_clocksByte m) hpos hk
  have hexec := exec_cfEnc_plain hpos m hle hk
  rw [encryptFrame_eq] at hexec
  refine ⟨_, u, _, bytesAndPeeks_length false m d s, hexec, ?_, hrun, hresponses, hregisters _⟩
  rw [endedOk_responses, (bytesAndPeeks_clockedBy false m d s).responses]
  rfl

/-- A received frame from what C1_DEC_BYTE and C1_PEEK answer for each byte. -/
theorem decryptFrame_eq (m : Bool) {gs : List (Bits × Bool)} (h : ∀ g ∈ gs, g.1.length = 8) (u : State) :
    let r := bytesAndPeeks m m (gs.map fun g => byteOfBits g.1) u
    decryptFrame m gs u = ((gs.zip r.1).map (fun q => (q.2.1, (q.1.2 ^^ q.2.2.2) == oddpar q.2.1)), r.2) := by
  induction gs generalizing u with
  | nil => rfl
  | cons g gs ih =>
    have hg : g = (bitsOf 8 (byteOfBits g.1), g.2) := by rw [bitsOf_byteOfBits _ (h g List.mem_cons_self)]
    have hbyte := decryptByte_eq m (byteOfBits g.1) g.2 u
    rw [← hg] at hbyte
    simp only [decryptFrame_cons, hbyte, ih fun g' hg' => h g' (List.mem_cons_of_mem g hg'), List.map_cons,
      bytesAndPeeks_cons, List.zip_cons_cons]

/-- The bytes of a received frame as they were sent, before decryption (R184). -/
def cipherBytes (nb : BitVec 16) (bits : Bytes) : Bytes :=
  (List.range (nb.toNat / 9)).map (receivedByte (unpackBits nb.toNat bits))

section Received

variable (m : Bool) (nb : BitVec 16) (bits : Bytes) (s : State)

theorem receivedFrame_eq :
    let r := bytesAndPeeks m m (cipherBytes nb bits) s
    receivedFrame m nb bits s =
      (((frameGroups (nb.toNat / 9) (unpackBits nb.toNat bits)).zip r.1).map
        (fun q => (q.2.1, (q.1.2 ^^ q.2.2.2) == oddpar q.2.1)), r.2) := by
  have hbytes : (frameGroups (nb.toNat / 9) (unpackBits nb.toNat bits)).map (fun g => byteOfBits g.1) =
      cipherBytes nb bits := by
    rw [frameGroups, List.map_map, cipherBytes]
    exact List.map_congr_left fun j _ => byteOfBits_take_drop _ j
  rw [receivedFrame, ← hbytes]
  exact decryptFrame_eq m (frameGroups_data_length _ _ (by rw [unpackBits_length]; omega)) s

theorem receivedFrame_map_fst :
    (receivedFrame m nb bits s).1.map Prod.fst = (bytesAndPeeks m m (cipherBytes nb bits) s).1.map (·.1) := by
  rw [receivedFrame_eq, List.map_map]
  change List.map (Prod.fst ∘ Prod.snd) _ = _
  rw [← List.map_map, List.map_snd_zip (by simp [cipherBytes])]

/-- A parity verdict is wrong exactly when some byte's parity bit, XOR the peeked bit, is not the plaintext's odd parity. -/
theorem receivedFrame_all_eq_false_iff :
    let out := (bytesAndPeeks m m (cipherBytes nb bits) s).1
    (receivedFrame m nb bits s).1.all Prod.snd = false ↔ ∃ j, j < nb.toNat / 9 ∧
      ((unpackBits nb.toNat bits).getD (9 * j + 8) false ^^ (out.getD j (0, 0, false)).2.2) ≠
        oddpar ((out.map (·.1)).getD j 0) := by
  intro out
  have hlen : out.length = nb.toNat / 9 := by simp [out, cipherBytes]
  rw [receivedFrame_eq, List.all_map, List.all_eq_false, List.exists_mem_iff_getElem]
  refine exists_congr fun j => ?_
  have hcount : j < ((frameGroups (nb.toNat / 9) (unpackBits nb.toNat bits)).zip out).length ↔ j < nb.toNat / 9 := by
    simp [hlen]
  have hplain : (out.map (·.1)).getD j 0 = (out.getD j (0, 0, false)).1 := List.getD_map (d := (0, 0, false)) ..
  simp only [← hcount, ← exists_prop]
  refine exists_congr fun hj => ?_
  rw [hplain, List.getD_eq_getElem out _ (hlen ▸ hcount.mp hj)]
  simp [frameGroups, out]

end Received

/-- Settles O55: the received frame and the commands clock the same bytes, and the verdicts are read from what they answer. -/
theorem cfDecResult : Obligations.CfDecResult := by
  intro m ctl nb bits s n bit hctl hmod hpos hle hcrc hk
  have hrange : decodeRange (crcFlag ctl) nb.toNat = true := by
    rw [decodeRange_iff]
    rintro (h | h | h | ⟨h, h'⟩)
    · exact h hmod
    · omega
    · omega
    · exact absurd (hcrc h) (by omega)
  have hlen : (cipherBytes nb bits).length = n := by simp [cipherBytes, n]
  obtain ⟨u, hrun, hresponses, hlfsr, _⟩ :=
    execAll_bytesAndPeeks (c1DecByte_clocksByte m) (xs := cipherBytes nb bits) (by omega) hk
  rw [cipherBytes, List.flatMap_map] at hrun
  refine ⟨u, (bytesAndPeeks m m (cipherBytes nb bits) s).1, by rw [bytesAndPeeks_length, hlen], hrun, hresponses, ?_⟩
  intro d parity
  have hd : (receivedFrame m nb bits s).1.map Prod.fst = d := receivedFrame_map_fst m nb bits s
  have hdlen : d.length = n := by simp [d, hlen]
  have hcrcOk : crcOk d = false ↔ crcA (d.take (n - 2)) ≠ u16OfBytes (d.getD (n - 2) 0) (d.getD (n - 1) 0) := by
    rw [crcOk, dropCrc, hdlen, beq_eq_false_iff_ne]
  have hpayload : framePayload (crcFlag ctl) d = if ctl.getLsbD 0 then d.take (n - 2) else d := by
    rw [framePayload, dropCrc, hdlen]
    rfl
  have hleft : (receivedFrame m nb bits s).2 = { s with lfsr := u.lfsr, clkcnt := s.clkcnt + BitVec.ofNat 32 (8 * n) } := by
    have hclocked := bytesAndPeeks_clockedBy m m (cipherBytes nb bits) s
    rw [hlen] at hclocked
    rw [receivedFrame_eq, hlfsr]
    exact hclocked
  have hexec := exec_cfDec_keyed m hctl hrange bits hk
  simp only [receivedFrame_all_eq_false_iff, hd, hcrcOk, hpayload, hleft] at hexec
  exact hexec

end Sys2Proof.Machine

/-! SUPPORT. The nonce helper family (44_nonce_helper.md): the u32 of four bytes, a step of the successor bit by bit, and the bit
sequence its steps slide along. -/

namespace Sys2Proof.Machine

open Sys2Proof.Safety

/-! ### A u32 and its four bytes (R190) -/

/-- The four shifted bytes do not overlap. -/
theorem u32OfBytes_eq_append (x0 x1 x2 x3 : Byte) : u32OfBytes x0 x1 x2 x3 = x3 ++ x2 ++ x1 ++ x0 := by
  refine BitVec.eq_of_getLsbD_eq fun i hi => ?_
  simp only [u32OfBytes, BitVec.getLsbD_or, BitVec.getLsbD_shiftLeft, BitVec.getLsbD_setWidth, BitVec.getLsbD_append]
  have hzero (x : Byte) {k : Nat} (hk : 8 ≤ k) : x.getLsbD k = false := BitVec.getLsbD_of_ge x k hk
  grind

/-- Four bytes are read back from the u32 they make. -/
theorem u32Bytes_u32OfBytes (x0 x1 x2 x3 : Byte) : u32Bytes (u32OfBytes x0 x1 x2 x3) = [x0, x1, x2, x3] := by
  simp (disch := decide) only [u32Bytes, u32OfBytes_eq_append, BitVec.extractLsb'_append_eq_of_le,
    BitVec.extractLsb'_append_eq_of_add_le, Nat.reduceSub, BitVec.extractLsb'_eq_self]

/-- Bit `i` of byte `j` of a u32 is its bit `8j+i`. -/
theorem u32Bytes_getLsbD (y : BitVec 32) {j i : Nat} (hj : j < 4) (hi : i < 8) :
    ((u32Bytes y).getD j 0).getLsbD i = y.getLsbD (8 * j + i) := by
  have hbytes : u32Bytes y = (List.range 4).map fun j => y.extractLsb' (8 * j) 8 := rfl
  simp [hbytes, hj, hi]

/-- A u32 is read back from its four bytes. -/
theorem u32OfBytes_u32Bytes (y : BitVec 32) :
    u32OfBytes (y.extractLsb' 0 8) (y.extractLsb' 8 8) (y.extractLsb' 16 8) (y.extractLsb' 24 8) = y := by
  refine BitVec.eq_of_getLsbD_eq fun k hk => ?_
  have hbytes : u32Bytes (u32OfBytes _ _ _ _) = u32Bytes y :=
    u32Bytes_u32OfBytes (y.extractLsb' 0 8) (y.extractLsb' 8 8) (y.extractLsb' 16 8) (y.extractLsb' 24 8)
  rw [← Nat.div_add_mod k 8, ← u32Bytes_getLsbD _ (by omega) (by omega), hbytes,
    u32Bytes_getLsbD y (by omega) (by omega)]

/-- Bit `8j+i` of the u32 of four bytes is bit `i` of byte `j`. -/
theorem u32OfBytes_getLsbD (x0 x1 x2 x3 : Byte) {j i : Nat} (hj : j < 4) (hi : i < 8) :
    (u32OfBytes x0 x1 x2 x3).getLsbD (8 * j + i) = ([x0, x1, x2, x3].getD j 0).getLsbD i := by
  rw [← u32Bytes_getLsbD _ hj hi, u32Bytes_u32OfBytes]

/-! ### Steps of the successor (R190) -/

/-- A step moves every bit above bit 0 one place down. -/
theorem sucStep_getLsbD (y : BitVec 32) {i : Nat} (hi : i < 31) : (sucStep y).getLsbD i = y.getLsbD (i + 1) := by
  simp [sucStep, hi, Nat.add_comm]

/-- The bit that a step brings in. -/
theorem sucStep_getLsbD_top (y : BitVec 32) :
    (sucStep y).getLsbD 31 = (y.getLsbD 16 ^^ y.getLsbD 18 ^^ y.getLsbD 19 ^^ y.getLsbD 21) := by
  simp [sucStep]

/-- `n` steps move a bit `n` places down, as long as it does not fall out. -/
theorem iterate_sucStep_getLsbD (y : BitVec 32) {n i : Nat} (h : i + n < 32) :
    (sucStep^[n] y).getLsbD i = y.getLsbD (i + n) := by
  induction n generalizing i with
  | zero => rfl
  | succ n ih =>
    calc (sucStep^[n + 1] y).getLsbD i
        = (sucStep (sucStep^[n] y)).getLsbD i := by rw [Function.iterate_succ_apply']
      _ = (sucStep^[n] y).getLsbD (i + 1) := sucStep_getLsbD _ (by omega)
      _ = y.getLsbD (i + (n + 1)) := by rw [ih (by omega), Nat.add_right_comm, Nat.add_assoc]

/-- The bit sequence of R190: bit `k` is the lowest bit after `k` steps. -/
def sucBit (y : BitVec 32) (k : Nat) : Bool :=
  (sucStep^[k] y).getLsbD 0

/-- The sequence begins with the bits of `y`. -/
theorem getLsbD_eq_sucBit (y : BitVec 32) {i : Nat} (hi : i < 32) : y.getLsbD i = sucBit y i := by
  rw [sucBit, iterate_sucStep_getLsbD y (by omega), Nat.zero_add]

/-- The u32 after `n` steps is a window of 32 bits on the sequence, from position `n`. -/
theorem iterate_sucStep_getLsbD_eq_sucBit (y : BitVec 32) (n : Nat) {i : Nat} (hi : i < 32) :
    (sucStep^[n] y).getLsbD i = sucBit y (n + i) := by
  rw [getLsbD_eq_sucBit _ hi, sucBit, sucBit, Nat.add_comm n i, Function.iterate_add_apply]

/-- The recurrence of the sequence: the bit that step `k+1` brings in. -/
theorem sucBit_add_32 (y : BitVec 32) (k : Nat) :
    sucBit y (k + 32) = (sucBit y (k + 16) ^^ sucBit y (k + 18) ^^ sucBit y (k + 19) ^^ sucBit y (k + 21)) := by
  have hwindow {i : Nat} (hi : i < 32) := iterate_sucStep_getLsbD_eq_sucBit y k hi
  calc sucBit y (k + 32)
      = (sucStep^[k + 1] y).getLsbD 31 := by rw [iterate_sucStep_getLsbD_eq_sucBit y (k + 1) (by omega)]
    _ = (sucStep (sucStep^[k] y)).getLsbD 31 := by rw [Function.iterate_succ_apply']
    _ = _ := by
      rw [sucStep_getLsbD_top, hwindow (by omega), hwindow (by omega), hwindow (by omega), hwindow (by omega)]

/-- Settles O57: the sequence is `sucBit` of the nonce's u32. -/
theorem sucIsBitSequence : Obligations.SucIsBitSequence := by
  intro x0 x1 x2 x3
  refine ⟨sucBit (u32OfBytes x0 x1 x2 x3), fun j i hj hi => ?_, sucBit_add_32 _, fun n => ⟨rfl, fun j i hj hi => ?_⟩⟩
  · rw [← getLsbD_eq_sucBit _ (by omega), u32OfBytes_getLsbD x0 x1 x2 x3 hj hi]
  · rw [suc, u32Bytes_getLsbD _ hj hi, iterate_sucStep_getLsbD_eq_sucBit _ n (by omega)]

/-! ### Properties of the successor (R192) -/

/-- R192 (a). -/
theorem suc_zero (x0 x1 x2 x3 : Byte) : suc x0 x1 x2 x3 0 = [x0, x1, x2, x3] :=
  u32Bytes_u32OfBytes x0 x1 x2 x3

/-- R192 (b): the u32 read back from the bytes after `a` steps goes on for `b` steps. -/
theorem suc_add (x0 x1 x2 x3 : Byte) (a b : Nat) : ∃ y0 y1 y2 y3 : Byte,
    suc x0 x1 x2 x3 a = [y0, y1, y2, y3] ∧ suc y0 y1 y2 y3 b = suc x0 x1 x2 x3 (a + b) := by
  refine ⟨_, _, _, _, rfl, ?_⟩
  rw [suc, u32OfBytes_u32Bytes, ← Function.iterate_add_apply, Nat.add_comm b a, suc]

/-- Eight steps move a byte one byte down. -/
theorem extractLsb'_iterate_eight_sucStep (y : BitVec 32) {a : Nat} (ha : a + 16 ≤ 32) :
    (sucStep^[8] y).extractLsb' a 8 = y.extractLsb' (a + 8) 8 := by
  refine BitVec.eq_of_getLsbD_eq fun i hi => ?_
  rw [BitVec.getLsbD_extractLsb', BitVec.getLsbD_extractLsb', iterate_sucStep_getLsbD y (by omega), Nat.add_right_comm]

/-- R192 (c): the new byte is what eight steps bring in at the top. -/
theorem suc_eight (x0 x1 x2 x3 : Byte) : ∃ z, suc x0 x1 x2 x3 8 = [x1, x2, x3, z] := by
  have hbytes := u32Bytes_u32OfBytes x0 x1 x2 x3
  simp only [u32Bytes, List.cons.injEq, and_true] at hbytes
  obtain ⟨-, h1, h2, h3⟩ := hbytes
  refine ⟨(sucStep^[8] (u32OfBytes x0 x1 x2 x3)).extractLsb' 24 8, ?_⟩
  rw [suc, u32Bytes, extractLsb'_iterate_eight_sucStep _ (by decide), extractLsb'_iterate_eight_sucStep _ (by decide),
    extractLsb'_iterate_eight_sucStep _ (by decide), h1, h2, h3]

/-- R192 (d): the zero u32 is a fixed point of a step. -/
theorem suc_zero_nonce (n : Nat) : suc 0 0 0 0 n = [0, 0, 0, 0] := by
  have hstep : sucStep 0 = 0 := by decide
  have hnonce : u32OfBytes 0 0 0 0 = 0 := by decide
  rw [suc, hnonce, Function.iterate_fixed hstep, ← hnonce, u32Bytes_u32OfBytes]

/-- The two values have the same bits from bit `k` on. -/
def AgreeFrom (k : Nat) (y y' : BitVec 32) : Prop :=
  ∀ i, k ≤ i → i < 32 → y.getLsbD i = y'.getLsbD i

/-- A step reads no bit below 16, so it makes one more bit agree. -/
theorem sucStep_agreeFrom {k : Nat} (hk : k < 16) {y y' : BitVec 32} (h : AgreeFrom (k + 1) y y') :
    AgreeFrom k (sucStep y) (sucStep y') := by
  intro i hki hi
  by_cases htop : i = 31
  · rw [htop, sucStep_getLsbD_top, sucStep_getLsbD_top, h 16 (by omega) (by omega), h 18 (by omega) (by omega),
      h 19 (by omega) (by omega), h 21 (by omega) (by omega)]
  · rw [sucStep_getLsbD y (by omega), sucStep_getLsbD y' (by omega), h (i + 1) (by omega) (by omega)]

/-- After `k` steps, values that agree from bit `k` on are equal. -/
theorem iterate_sucStep_eq_of_agreeFrom {k : Nat} (hk : k ≤ 16) {y y' : BitVec 32} (h : AgreeFrom k y y') :
    sucStep^[k] y = sucStep^[k] y' := by
  induction k generalizing y y' with
  | zero => exact BitVec.eq_of_getLsbD_eq fun i hi => h i i.zero_le hi
  | succ k ih => exact ih (by omega) (sucStep_agreeFrom (by omega) h)

/-- The last two bytes of a nonce fill its u32 from bit 16 on. -/
theorem u32OfBytes_agreeFrom (x0 x1 y0 y1 x2 x3 : Byte) :
    AgreeFrom 16 (u32OfBytes x0 x1 x2 x3) (u32OfBytes y0 y1 x2 x3) := by
  intro k hk hlt
  obtain hj | hj : k / 8 = 2 ∨ k / 8 = 3 := by omega
  all_goals
    rw [← Nat.div_add_mod k 8, u32OfBytes_getLsbD _ _ _ _ (by omega) (by omega),
      u32OfBytes_getLsbD _ _ _ _ (by omega) (by omega), hj]
    rfl

/-- From 16 steps on, the first two bytes of the nonce have no effect. -/
theorem suc_eq_of_sixteen_le (x0 x1 y0 y1 x2 x3 : Byte) {n : Nat} (hn : 16 ≤ n) :
    suc x0 x1 x2 x3 n = suc y0 y1 x2 x3 n := by
  obtain ⟨m, rfl⟩ := Nat.exists_eq_add_of_le' hn
  have hsixteen := iterate_sucStep_eq_of_agreeFrom le_rfl (u32OfBytes_agreeFrom x0 x1 y0 y1 x2 x3)
  rw [suc, suc, Function.iterate_add_apply, Function.iterate_add_apply, hsixteen]

/-- Settles O58. -/
theorem sucProperties : Obligations.SucProperties :=
  ⟨suc_zero, suc_add, suc_eight, suc_zero_nonce, fun x0 x1 y0 y1 x2 x3 _ => suc_eq_of_sixteen_le x0 x1 y0 y1 x2 x3⟩

/-! ### NH_SUC (R191) -/

theorem exec_nhSuc (cnt x0 x1 x2 x3 : Byte) (s : State) :
    exec (.nhSuc cnt x0 x1 x2 x3) s = .next (endedOk (suc x0 x1 x2 x3 cnt.toNat) s) :=
  respond_endedOk _ s

/-- Settles O56: the corner cases are R192 (a) and (d). -/
theorem nhSucResult : Obligations.NhSucResult := by
  refine ⟨fun _ _ _ _ _ => rfl, exec_nhSuc, fun x0 x1 x2 x3 s => ?_, fun cnt s => ?_⟩
  · have hcnt : (0 : Byte).toNat = 0 := rfl
    rw [exec_nhSuc, hcnt, suc_zero]
  · rw [exec_nhSuc, suc_zero_nonce]

end Sys2Proof.Machine

/-! SUPPORT. The exceptions family (60_exceptions.md): what a buffer's first byte says of its command, how every buffer ends, and
the checks of R205 as the tables read on the raw bytes. -/

namespace Sys2Proof.Machine

open Sys2Proof.Safety

/-! ### No command pending (R220, R231) -/

/-- Settles O6: the idle step's equation. -/
theorem idleBlockKeepsState : Obligations.IdleBlockKeepsState :=
  fun _ => step_of_idle

/-! ### The command behind a first byte (R66) -/

section Head

variable {c : Bytes} {i : Instr} (hd : decode c = .ok i)
include hd

/-- The opcode of a command without operands is no other command's. -/
theorem head_eq_iff_of_formatA {op : Byte} {j : Instr} (hop : decodeOperands op = formatA j) (hj : encode j = [op]) :
    c.head? = some op ↔ i = j := by
  constructor
  · intro hc
    obtain ⟨rest, rfl⟩ := List.head?_eq_some_iff.mp hc
    have hread : formatA j rest = .ok i := hop ▸ hd
    exact (formatA_eq_ok.mp hread).2.symm
  · rintro rfl
    rw [← (encodeOfDecode c i hd).2, hj]
    rfl

theorem head_eq_cfDec_iff :
    (c.head? = some 0x32 ∨ c.head? = some 0x33) ↔ ∃ m ctl nb bits, i = .cfDec m ctl nb bits := by
  constructor
  · rintro (hc | hc)
    all_goals
      obtain ⟨rest, rfl⟩ := List.head?_eq_some_iff.mp hc
      obtain ⟨ctl, nb, bits, -, -, rfl⟩ := formatS_eq_ok.mp hd
      exact ⟨_, ctl, nb, bits, rfl⟩
  · rintro ⟨m, ctl, nb, bits, rfl⟩
    rw [← (encodeOfDecode c _ hd).2]
    cases m
    · exact .inl rfl
    · exact .inr rfl

end Head

theorem isStatusCommand_iff (c : Bytes) : isStatusCommand c = true ↔ c.head? = some 0x01 :=
  beq_iff_eq

theorem skipsLastSt_iff (i : Instr) : skipsLastSt i = true ↔ i = .status := by
  unfold skipsLastSt
  split
  next => exact iff_of_true rfl rfl
  next hi => exact iff_of_false nofun hi

/-- The buffer and the command it holds agree on whether `LASTST` is skipped. -/
theorem skipsLastSt_eq {c : Bytes} {i : Instr} (hd : decode c = .ok i) : skipsLastSt i = isStatusCommand c := by
  rw [Bool.eq_iff_iff, skipsLastSt_iff, isStatusCommand_iff, head_eq_iff_of_formatA hd rfl rfl]

/-! ### How every buffer ends (R201, R206) -/

/-- The state that the epilogue of a failing buffer works on: nothing was written, but that a CF_DEC ending with PARITY or CRC
has discarded the cipher (R185, R201). -/
def stateAtFailure (c : Bytes) (st : Status) (s : State) : State :=
  if (c.head? = some 0x32 ∨ c.head? = some 0x33) ∧ (st = .parity ∨ st = .crc) then discard s else s

/-- `ERRSTICKY` before the epilogue of a buffer that ends OK: CLEAR_ERR and BLOCK_RESET have cleared it (R102, R103). -/
def stickyAtSuccess (c : Bytes) (s : State) : Byte :=
  if c.head? = some 0x02 ∨ c.head? = some 0x03 then 0x00 else s.errSticky

theorem errorStatus_ne_ok (e : DecodeError) : errorStatus e ≠ .ok := by
  cases e <;> decide

/-- The decoder's errors are neither PARITY nor CRC. -/
theorem stateAtFailure_errorStatus (c : Bytes) (e : DecodeError) (s : State) :
    stateAtFailure c (errorStatus e) s = s := by
  have hst : ¬(errorStatus e = .parity ∨ errorStatus e = .crc) := by cases e <;> decide
  exact if_neg fun h => hst h.2

theorem stateAtFailure_frame (c : Bytes) (st : Status) (s : State) :
    (stateAtFailure c st s).responses = s.responses ∧ (stateAtFailure c st s).lastSt = s.lastSt ∧
      (stateAtFailure c st s).sticky = s.sticky := by
  unfold stateAtFailure
  split <;> exact ⟨rfl, rfl, rfl⟩

theorem FailEffect.eq_stateAtFailure {c : Bytes} {i : Instr} (hd : decode c = .ok i) {st : Status} {s x : State}
    (h : FailEffect st s x i) : x = stateAtFailure c st s := by
  have hcf := head_eq_cfDec_iff hd
  unfold FailEffect at h
  unfold stateAtFailure
  split at h
  next m ctl nb bits =>
    have hhead := hcf.mpr ⟨m, ctl, nb, bits, rfl⟩
    split at h
    next hst => rw [h, if_pos ⟨hhead, hst⟩]
    next hst => rw [h, if_neg fun hc => hst hc.2]
  next hother =>
    rw [h, if_neg]
    rintro ⟨hhead, -⟩
    obtain ⟨m, ctl, nb, bits, rfl⟩ := hcf.mp hhead
    exact hother m ctl nb bits rfl

theorem Effect.errSticky {i : Instr} {s x : State} (h : Effect s i x) (hclear : i ≠ .clearErr)
    (hreset : i ≠ .blockReset) : x.errSticky = s.errSticky := by
  cases h with
  | unchanged | crcInit | crcUpdate | loadKey | discard | decryptFailed => rfl
  | clearErr => exact absurd rfl hclear
  | blockReset => exact absurd rfl hreset
  | clocked _ _ hx => exact hx.errSticky

theorem OkEffect.errSticky {c : Bytes} {i : Instr} (hd : decode c = .ok i) {s x : State} (h : OkEffect s x i) :
    x.errSticky = stickyAtSuccess c s := by
  have hclear : c.head? = some 0x02 ↔ i = .clearErr := head_eq_iff_of_formatA hd rfl rfl
  have hreset : c.head? = some 0x03 ↔ i = .blockReset := head_eq_iff_of_formatA hd rfl rfl
  unfold stickyAtSuccess
  split
  next hhead =>
    obtain hhead | hhead := hhead
    · obtain rfl := hclear.mp hhead
      cases h; rfl
    · obtain rfl := hreset.mp hhead
      cases h; rfl
  next hhead =>
    obtain ⟨hhead, hhead'⟩ := not_or.mp hhead
    exact h.effect.errSticky (mt hclear.mpr hhead) (mt hreset.mpr hhead')

/-- What a buffer leaves to its epilogue: after a failure no payload and `stateAtFailure`, after OK a state whose `ERRSTICKY`
is known; the response and `LASTST` are the epilogue's own to write. -/
inductive BufferEffect (c : Bytes) (s : State) : Status → Bytes → State → Prop
  | failed {st : Status} (hst : st ≠ .ok) : BufferEffect c s st [] (stateAtFailure c st s)
  | succeeded {p : Bytes} {x : State} (hresponses : x.responses = s.responses) (hlast : x.lastSt = s.lastSt)
      (hsticky : x.errSticky = stickyAtSuccess c s) : BufferEffect c s .ok p x

/-- Every buffer, legal or not, ends with the epilogue of some status on such an effect. -/
theorem execCommand_bufferEffect (c : Bytes) (s : State) :
    ∃ (st : Status) (p : Bytes) (x : State),
      execCommand c s = .next (endCommand (isStatusCommand c) st p x) ∧ BufferEffect c s st p x := by
  cases hd : decode c with
  | error e =>
    refine ⟨errorStatus e, [], stateAtFailure c (errorStatus e) s, ?_, .failed (errorStatus_ne_ok e)⟩
    rw [execCommand_of_error hd, stateAtFailure_errorStatus]
  | ok i =>
    obtain ⟨st, p, x, hx, hfail, hok⟩ := exec_ends i s
    refine ⟨st, p, x, ?_, ?_⟩
    · rw [execCommand_of_ok hd, hx, skipsLastSt_eq hd]
    · by_cases hst : st = .ok
      · have hsuccess := hok hst
        subst hst
        exact .succeeded hsuccess.effect.responses hsuccess.effect.lastSt (hsuccess.errSticky hd)
      · obtain ⟨rfl, hfailed⟩ := hfail hst
        rw [hfailed.eq_stateAtFailure hd]
        exact .failed hst

theorem endCommand_eq_commandEndedWith {st : Status} (h : st ≠ .ok) (c : Bytes) (s : State) :
    endCommand (isStatusCommand c) st [] s = commandEndedWith c st.code s := by
  rw [endCommand, lastStAfter, stickyAfter_of_ne_ok h, stickyBit_eq_shift h]
  simp only [isStatusCommand_iff]
  rfl

/-- Settles O9: the epilogue reads the first byte for STATUS, and what it finds in `ERRSTICKY` is the buffer's effect. -/
theorem epilogue : Obligations.Epilogue := by
  intro s t c rest hp ht
  obtain ⟨st, p, x, hx, heffect⟩ := execCommand_bufferEffect c { s with pending := rest }
  rw [step_of_pending hp, hx] at ht
  cases ht
  refine ⟨st, p, ?_⟩
  simp only [endCommand_responses, endCommand_lastSt, endCommand_errSticky, lastStAfter, isStatusCommand_iff]
  cases heffect with
  | failed hst =>
    obtain ⟨hresponses, hlast, hsticky⟩ := stateAtFailure_frame c st { s with pending := rest }
    refine ⟨by rw [hresponses], fun hc => if_neg hc, fun hc => (if_pos hc).trans hlast, fun _ => ?_,
      fun h => absurd h hst⟩
    rw [stickyAfter_of_ne_ok hst, stickyBit_eq_shift hst, hsticky]
    rfl
  | succeeded hresponses hlast hsticky =>
    exact ⟨by rw [hresponses], fun hc => if_neg hc, fun hc => (if_pos hc).trans hlast, fun h => absurd rfl h,
      fun _ => hsticky⟩

theorem code_injective : Function.Injective Status.code :=
  Function.LeftInverse.injective (g := fun b => Status.ofNat b.toNat) fun st => by cases st <;> rfl

/-- Settles O10: the response names the status, and a failing buffer's epilogue works on `stateAtFailure`. -/
theorem failureFrame : Obligations.FailureFrame := by
  intro s t c rest st payload hp ht hresponse hst
  obtain ⟨st', p, x, hx, heffect⟩ := execCommand_bufferEffect c { s with pending := rest }
  rw [step_of_pending hp, hx] at ht
  cases ht
  rw [endCommand_responses] at hresponse
  have hsame (hresponses : x.responses = s.responses) : st' = st ∧ p = payload := by
    simpa [hresponses, code_injective.eq_iff] using hresponse
  cases heffect with
  | succeeded hresponses => exact absurd (hsame hresponses).1.symm hst
  | failed =>
    obtain ⟨rfl, rfl⟩ := hsame (stateAtFailure_frame c st' _).1
    exact ⟨rfl, endCommand_eq_commandEndedWith hst c _⟩

end Sys2Proof.Machine

namespace Sys2Proof

open Machine Safety

/-! ### The length check against its table (R203, first table) -/

theorem streamCount_eq (op ctl lo hi : Byte) (bits : Bytes) :
    streamCount (op :: ctl :: lo :: hi :: bits) = (u16OfBytes lo hi).toNat := by
  rw [u16OfBytes_toNat]
  rfl

/-- A row's format refuses the operand bytes exactly when the table of R203 calls the buffer's length wrong: the split is on as
many operand bytes as the format names. -/
theorem MapRow.lengthWrong_iff {op : Byte} {f : Format} {read : Bytes → Decoded} (h : MapRow op (some f) read)
    (rest : Bytes) : lengthWrong (op :: rest) f = true ↔ read rest = .error .length := by
  cases h with
  | A => rcases rest with _ | ⟨_, _⟩ <;> simp [lengthWrong, formatA]
  | B => rcases rest with _ | ⟨_, _ | ⟨_, _⟩⟩ <;> simp [lengthWrong, formatB]
  | W => rcases rest with _ | ⟨_, _ | ⟨_, _ | ⟨_, _ | ⟨_, _ | ⟨_, _⟩⟩⟩⟩⟩ <;> simp [lengthWrong, formatW]
  | N =>
    rcases rest with _ | ⟨_, _ | ⟨_, _ | ⟨_, _ | ⟨_, _ | ⟨_, _ | ⟨_, _⟩⟩⟩⟩⟩⟩ <;> simp [lengthWrong, formatN]
  | K =>
    rcases rest with _ | ⟨_, _ | ⟨_, _ | ⟨_, _ | ⟨_, _ | ⟨_, _ | ⟨_, _ | ⟨_, _⟩⟩⟩⟩⟩⟩⟩ <;>
      simp [lengthWrong, formatK]
  | L =>
    rcases rest with _ | ⟨len, data⟩
    · simp [lengthWrong, formatL]
    · simp [lengthWrong, formatL]
      omega
  | F =>
    rcases rest with _ | ⟨ctl, _ | ⟨len, data⟩⟩
    · simp [lengthWrong, formatF]
    · simp [lengthWrong, formatF]
    · simp [lengthWrong, formatF]
      omega
  | S =>
    rcases rest with _ | ⟨ctl, _ | ⟨lo, _ | ⟨hi, bits⟩⟩⟩
    · simp [lengthWrong, formatS]
    · simp [lengthWrong, formatS]
    · simp [lengthWrong, formatS]
    · simp [lengthWrong, formatS, streamCount_eq]
      unfold streamBytes
      omega

end Sys2Proof

namespace Sys2Proof.Machine

open Sys2Proof.Safety

/-! ### The range check against its table (R203, second table) -/

theorem rangeWrong_fcCrc {data : Bytes} (h : data.length ≤ 255) :
    rangeWrong 0x16 (0x16 :: lengthAndData data) = !decide (data.length ≤ maxFrameBytes) := by
  have hlen : data.length % 256 = data.length := by omega
  rw [Bool.eq_iff_iff]
  simp [rangeWrong, lengthAndData, hlen]

theorem rangeWrong_fcCrcCheck {data : Bytes} (h : data.length ≤ 255) :
    rangeWrong 0x17 (0x17 :: lengthAndData data) =
      !(decide (2 ≤ data.length) && decide (data.length ≤ maxFrameBytes)) := by
  have hlen : data.length % 256 = data.length := by omega
  rw [Bool.eq_iff_iff]
  simp [rangeWrong, lengthAndData, hlen]

/-- FC_ENC_STD and CF_ENC. -/
theorem rangeWrong_encode {op : Nat} (hop : op = 0x12 ∨ op = 0x30 ∨ op = 0x31) (b ctl : Byte) {data : Bytes}
    (h : data.length ≤ 255) :
    rangeWrong op (b :: ctl :: lengthAndData data) = !encodeRange (crcFlag ctl) data.length := by
  have hlen : data.length % 256 = data.length := by omega
  rw [Bool.eq_iff_iff, Bool.not_eq_true', ← Bool.not_eq_true, encodeRange_iff, not_not]
  rcases hop with rfl | rfl | rfl <;> simp [rangeWrong, lengthAndData, hlen, crcFlag]

/-- FC_DEC_STD and CF_DEC. -/
theorem rangeWrong_decode {op : Nat} (hop : op = 0x13 ∨ op = 0x32 ∨ op = 0x33) (b ctl : Byte) (nb : BitVec 16)
    (bits : Bytes) :
    rangeWrong op (b :: ctl :: (u16Bytes nb ++ bits)) = !decodeRange (crcFlag ctl) nb.toNat := by
  rw [Bool.eq_iff_iff, Bool.not_eq_true', ← Bool.not_eq_true, decodeRange_iff, not_not]
  rcases hop with rfl | rfl | rfl <;> simp [rangeWrong, u16Bytes, streamCount_eq, crcFlag, or_assoc]

theorem rangeWrong_fcDec4Bit (ctl : Byte) (nb : BitVec 16) (bits : Bytes) :
    rangeWrong 0x15 (0x15 :: ctl :: (u16Bytes nb ++ bits)) = !(nb == 4) := by
  rw [Bool.eq_iff_iff]
  simp [rangeWrong, u16Bytes, streamCount_eq, BitVec.toNat_eq]

/-! ### The checks in order (R205) -/

/-- R205, steps 3 to 5, as the tables read on the raw bytes: for each check whether the buffer fails it, and the status that it
then ends with. -/
def tableChecks (c : Bytes) (keyed : Bool) : List (Bool × Status) :=
  [(decide (c.getD 1 0 &&& reservedMask (c.getD 0 0).toNat ≠ 0), .reserved),
    (rangeWrong (c.getD 0 0).toNat c, .length),
    (readsKeystream (c.getD 0 0).toNat && !keyed, .notKeyed)]

/-- The status of the first check that fails. -/
def firstFailing : List (Bool × Status) → Option Status
  | [] => none
  | (fails, st) :: checks => if fails then some st else firstFailing checks

/-- The result of a buffer that executes (R205, step 6): it ends with OK, or a decoder with PARITY or CRC. -/
def Executes (c : Bytes) (s : State) (r : Result) : Prop :=
  ∃ (t : State) (code : Byte) (payload : Bytes), r = .next t ∧ t.responses = s.responses ++ [code :: payload] ∧
    (code = 0x00 ∨ isDecoder c = true ∧ (code = 0x05 ∨ code = 0x06))

theorem Executes.ok {c : Bytes} {s x : State} (b : Bool) (p : Bytes) (hx : x.responses = s.responses) :
    Executes c s (.next (endCommand b .ok p x)) :=
  ⟨_, _, p, rfl, congrArg (· ++ [0x00 :: p]) hx, .inl rfl⟩

/-- The checks of a decoder while it executes. -/
theorem Executes.require {c : Bytes} {s x : State} {ok : Bool} {st : Status} {go : Result} (hc : isDecoder c = true)
    (hst : st.code = 0x05 ∨ st.code = 0x06) (hx : x.responses = s.responses) (hgo : Executes c s go) :
    Executes c s (require ok st x go) := by
  cases ok
  · exact ⟨_, _, [], rfl, congrArg (· ++ [[st.code]]) hx, .inr ⟨hc, hst⟩⟩
  · exact hgo

/-- The result `r` is that of `checks` made in order, and of an execution when all of them pass. -/
inductive Checked (c : Bytes) (s : State) : List (Bool × Status) → Result → Prop
  | executes {r : Result} (h : Executes c s r) : Checked c s [] r
  | passes {fails : Bool} {st : Status} {checks : List (Bool × Status)} {r : Result} (hpass : fails = false)
      (h : Checked c s checks r) : Checked c s ((fails, st) :: checks) r
  | fails {st : Status} {checks : List (Bool × Status)} :
      Checked c s ((true, st) :: checks) (.next (endCommand (isStatusCommand c) st [] s))

/-- A check that the command makes itself. -/
theorem Checked.require {c : Bytes} {s : State} {fails ok : Bool} {st : Status} {checks : List (Bool × Status)}
    {go : Result} (hc : isStatusCommand c = false) (hok : fails = !ok) (hgo : Checked c s checks go) :
    Checked c s ((fails, st) :: checks) (require ok st s go) := by
  subst hok
  cases ok
  · have hraise : raise st s = .next (endCommand (isStatusCommand c) st [] s) := by rw [hc, raise]
    rw [require_false, hraise]
    exact .fails
  · exact .passes rfl hgo

theorem Checked.eq_or_executes {c : Bytes} {s : State} {checks : List (Bool × Status)} {r : Result}
    (h : Checked c s checks r) :
    (∃ st, firstFailing checks = some st ∧ r = .next (endCommand (isStatusCommand c) st [] s)) ∨
      (firstFailing checks = none ∧ Executes c s r) := by
  induction h with
  | executes h => exact .inr ⟨rfl, h⟩
  | passes hpass _ ih => subst hpass; exact ih
  | fails => exact .inl ⟨_, rfl, rfl⟩

theorem ne_ok_of_firstFailing {c : Bytes} {keyed : Bool} {st : Status}
    (h : firstFailing (tableChecks c keyed) = some st) : st ≠ .ok := by
  rintro rfl
  simp only [tableChecks, firstFailing] at h
  split_ifs at h <;> cases h

/-- The first check of a command with reserved bits. -/
theorem Checked.reserved {c : Bytes} {s : State} {mask b : Byte} {checks : List (Bool × Status)} {go : Result}
    (hc : isStatusCommand c = false) (hgo : Checked c s checks go) :
    Checked c s ((decide (b &&& mask ≠ 0), .reserved) :: checks)
      (Machine.require (reservedClear mask b) .reserved s go) :=
  .require hc (by rw [reservedClear_eq, decide_not]) hgo

/-- The first check of a command without reserved bits, whatever byte follows its opcode. -/
theorem Checked.unreserved {c : Bytes} {s : State} {b : Byte} {checks : List (Bool × Status)} {r : Result}
    (h : Checked c s checks r) : Checked c s ((decide (b &&& 0x00 ≠ 0), .reserved) :: checks) r :=
  .passes (by simp) h

/-- Every command makes the checks that the tables give its buffer, in their order, and no other before it executes. A check
that the tables give to its opcode is a `require` of its meaning; the others pass for every operand. -/
theorem exec_checked {i : Instr} (hwf : i.wellFormed = true) (s : State) :
    Checked (encode i) s (tableChecks (encode i) s.keyed) (exec i s) := by
  cases i with
  | nop | status | clearErr | blockReset | fcCrcInit | fcCrcRead | c1Discard | c1ReadState =>
    exact .passes rfl <| .passes rfl <| .passes rfl <| .executes <| .ok _ _ rfl
  | fcParity | fcCrcUpdate | c1LoadKey | nhSuc =>
    exact .unreserved <| .passes rfl <| .passes rfl <| .executes <| .ok _ _ rfl
  | fcEncShort | fcEnc4Bit =>
    exact .reserved rfl <| .passes rfl <| .passes rfl <| .executes <| .ok _ _ rfl
  | fcCrc data =>
    exact .unreserved <| .require rfl (rangeWrong_fcCrc (of_decide_eq_true hwf)) <| .passes rfl <|
      .executes <| .ok _ _ rfl
  | fcCrcCheck data =>
    exact .unreserved <| .require rfl (rangeWrong_fcCrcCheck (of_decide_eq_true hwf)) <| .passes rfl <|
      .executes <| .ok _ _ rfl
  | fcEncStd ctl data =>
    exact .reserved rfl <| .require rfl (rangeWrong_encode (.inl rfl) _ ctl (of_decide_eq_true hwf)) <| .passes rfl <|
      .executes <| .ok _ _ rfl
  | fcDecStd ctl nb bits =>
    exact .reserved rfl <| .require rfl (rangeWrong_decode (.inl rfl) _ ctl nb bits) <| .passes rfl <|
      .executes <| .require rfl (by decide) rfl <| .require rfl (by decide) rfl <| .ok _ _ rfl
  | fcDec4Bit ctl nb bits =>
    exact .reserved rfl <| .require rfl (rangeWrong_fcDec4Bit ctl nb bits) <| .passes rfl <| .executes <| .ok _ _ rfl
  | c1Peek =>
    exact .passes rfl <| .passes rfl <| .require rfl rfl <| .executes <| .ok _ _ rfl
  | c1Bit m imm =>
    cases m <;> exact .reserved rfl <| .passes rfl <| .require rfl rfl <| .executes <| .ok _ _ rfl
  | c1Nibble m imm =>
    cases m <;> exact .reserved rfl <| .passes rfl <| .require rfl rfl <| .executes <|
      .ok _ _ (clockBits_clockedBy _ _ _).responses
  | c1Byte m imm =>
    cases m <;> exact .unreserved <| .passes rfl <| .require rfl rfl <| .executes <|
      .ok _ _ (clockByte_clockedBy _ _ _).responses
  | c1Word m w0 w1 w2 w3 =>
    cases m <;> exact .unreserved <| .passes rfl <| .require rfl rfl <| .executes <|
      .ok _ _ (clockBytes_clockedBy _ _ _).responses
  | c1EncByte m imm | c1DecByte m imm =>
    cases m <;> exact .unreserved <| .passes rfl <| .require rfl rfl <| .executes <|
      .ok _ _ (clockBits_clockedBy _ _ _).responses
  | cfEnc m ctl data =>
    have hrange {op : Nat} (hop : op = 0x30 ∨ op = 0x31) (b : Byte) :=
      rangeWrong_encode (.inr hop) b ctl (of_decide_eq_true hwf)
    cases m <;> exact .reserved rfl <| .require rfl (hrange (by simp [encode, modeOpcode]) _) <| .require rfl rfl <|
      .executes <| .ok _ _ (encryptFrame_clockedBy _ _ _).responses
  | cfDec m ctl nb bits =>
    have hrange {op : Nat} (hop : op = 0x32 ∨ op = 0x33) (b : Byte) := rangeWrong_decode (.inr hop) b ctl nb bits
    have hx := (receivedFrame_clockedBy m nb bits s).responses
    cases m <;> exact .reserved rfl <| .require rfl (hrange (by simp [encode, modeOpcode]) _) <| .require rfl rfl <|
      .executes <| .require rfl (by decide) hx <| .require rfl (by decide) hx <| .ok _ _ hx

/-- A buffer that is no command fails one of the first two checks of the tables. -/
theorem checkedStatus_of_error {c : Bytes} {e : DecodeError} (hd : decode c = .error e) (keyed : Bool) :
    checkedStatus c keyed = some (errorStatus e).code := by
  cases c with
  | nil => cases hd; rfl
  | cons op rest =>
    have hrow := decodeOperands_mapRow op
    rw [checkedStatus]
    cases hf : opcodeFormat op.toNat with
    | none =>
      have hillegal := (hrow.eq_illegalOpcode_iff rest).mpr hf
      cases hd.symm.trans hillegal
      rfl
    | some f =>
      rw [hf] at hrow
      cases e with
      | illegalOpcode => cases (hrow.eq_illegalOpcode_iff rest).mp hd
      | length => exact if_pos ((hrow.lengthWrong_iff rest).mpr hd)

/-- A buffer that holds a command passes the first two checks of the tables, and the others are made in order. -/
theorem checkedStatus_of_ok {c : Bytes} {i : Instr} (hd : decode c = .ok i) (keyed : Bool) :
    checkedStatus c keyed = (firstFailing (tableChecks c keyed)).map Status.code := by
  cases c with
  | nil => cases hd
  | cons op rest =>
    have hrow := decodeOperands_mapRow op
    have hread : decodeOperands op rest = .ok i := hd
    rw [checkedStatus]
    cases hf : opcodeFormat op.toNat with
    | none => cases hread.symm.trans ((hrow.eq_illegalOpcode_iff rest).mpr hf)
    | some f =>
      rw [hf] at hrow
      have hlen : ¬lengthWrong (op :: rest) f = true := fun h => by
        cases hread.symm.trans ((hrow.lengthWrong_iff rest).mp h)
      simp only [if_neg hlen, tableChecks, firstFailing, decide_eq_true_eq, apply_ite (Option.map Status.code)]
      rfl

/-- Settles O8: a buffer that is no command fails in the decoder, which makes the tables' first two checks; any other is a
command's own, whose meaning makes the rest of them. -/
theorem checksInOrder : Obligations.ChecksInOrder := by
  intro s c rest hp
  rw [step_of_pending hp]
  cases hd : decode c with
  | error e =>
    rw [checkedStatus_of_error hd, execCommand_of_error hd, endCommand_eq_commandEndedWith (errorStatus_ne_ok e)]
  | ok i =>
    rw [checkedStatus_of_ok hd, execCommand_of_ok hd]
    obtain ⟨hwf, rfl⟩ := encodeOfDecode c i hd
    rcases (exec_checked hwf { s with pending := rest }).eq_or_executes with ⟨st, hfirst, hrun⟩ | ⟨hfirst, hrun⟩
    · have hst := ne_ok_of_firstFailing hfirst
      rw [hfirst, hrun, endCommand_eq_commandEndedWith hst]
      rfl
    · rw [hfirst]
      exact hrun

end Sys2Proof.Machine

/-! SUPPORT. The reset family (70_reset_and_hazards.md): the power-on state, and BLOCK_RESET from any state. -/

namespace Sys2Proof.Machine

open Sys2Proof.Safety

/-! ### The power-on state (R230) -/

/-- Settles O13: no key is held and the cipher registers are 0, no hardwired bit of `ERRSTICKY` is set, and `LASTST` is OK. -/
theorem resetHasInv : Obligations.ResetHasInv :=
  ⟨fun _ => ⟨rfl, rfl⟩, BitVec.zero_and, code_toNat_le .ok⟩

/-! ### BLOCK_RESET (R103) -/

theorem exec_blockReset (s : State) : exec .blockReset s =
    .next (endedOk [] { s with lfsr := 0, keyed := false, clkcnt := 0, crcacc := crcInit, errSticky := 0x00 }) := rfl

/-- R230: BLOCK_RESET writes five of the six registers itself and the epilogue of a command that ends OK writes `LASTST`, so of
the state before it only the interface's two lists are left. -/
theorem exec_blockReset_eq_reset (s : State) : exec .blockReset s =
    .next { State.reset with pending := s.pending, responses := s.responses ++ [[0x00]] } := by
  rw [exec_blockReset]
  rfl

/-- Settles O18: the values are those `State.reset` is defined with, and BLOCK_RESET restores all six of them. -/
theorem powerOnAndBlockReset : Obligations.PowerOnAndBlockReset :=
  ⟨⟨rfl, rfl, rfl, rfl, rfl, rfl⟩, exec_blockReset_eq_reset⟩

end Sys2Proof.Machine
